-- ==== Sys2Proof/Word.lean ====
section
/-!
DEFINITION. Word.lean: the fixed-width words of the block (00_scope R7, R10; 30_encoding R71; 10_state R25, R27; 20_memory R56).
-/

namespace Sys2Proof

/-- A command word `cmd[31:0]` (R71). -/
abbrev Word := BitVec 32

/-- A control byte (`CTRL_WIDTH` = 8, R7, R25), and one byte of a returned buffer (R55). -/
abbrev Byte := BitVec 8

/-- The shared noise register, `LFSR_WIDTH` = 17 bits (R7, R27). -/
abbrev Lfsr := BitVec 17

/-- One PCM sample as the 16-bit pattern of R56 (`PCM_BITS` = 16, R7); `BitVec.toInt` is that rule's `sext_16`. -/
abbrev Sample := BitVec 16

/-- A channel number 0..3 (`NCH` = 4, R7). -/
abbrev Chan := Fin 4

end Sys2Proof
end

