-- ==== Sys2Proof/Syntax.lean ====
section
/-!
DEFINITION. Syntax.lean: the abstract commands (30_encoding R70, R85), one constructor per row of spec/opcode_table.json, and what a
host can put on the command port.
-/

namespace Sys2Proof

/-- The abstract commands of R70. The operands are integers, as in the pseudocode of R90, R92 and R130, whose first lines test them:
an out-of-range operand can be written down, and executing it raises the fault the spec names (R151 to R153; log entry 12). -/
inductive Instr where
  /-- WRFREQ ch, v: the source's `writeFrequency(channel, value)` (R90). -/
  | wrfreq (ch v : Int)
  /-- WRCTRL ch, v: the source's `writeControl(channel, value)` (R92). -/
  | wrctrl (ch v : Int)
  /-- STEP: the source's `stepSample()` (R110). -/
  | step
  /-- RENDER n: the source's `renderBuffer` after the sample count has been computed (R130). -/
  | render (n : Int)
  deriving DecidableEq, Repr

/-- What a host presents to an instance, one at a time (R60, R70, R71, R83). -/
inductive Command where
  /-- A 32-bit command word (R71); the engine decodes it. -/
  | word (w : Word)
  /-- An abstract command (R70), the level the source itself defines. -/
  | call (i : Instr)
  /-- RENDERSEC d: the source's `renderBuffer(durationSeconds)`, d an exact rational number of seconds (R83, D27). -/
  | renderSec (d : Rat)
  deriving DecidableEq, Repr

end Sys2Proof
end

