-- ==== Sys2Proof/WellFormed.lean ====
section
/-!
DEFINITION. WellFormed.lean: which abstract commands have a command word (30_encoding R73 to R76), and which meet the source's
preconditions (R70).
-/

namespace Sys2Proof

/-- The channel precondition of WRFREQ and WRCTRL: 0..3 (R70, R151). -/
def channelOk (ch : Int) : Bool := decide (0 ≤ ch ∧ ch < 4)

/-- The range of a 24-bit unsigned immediate: 0..16,777,215 (`FREQ_WIDTH` = 24, R73; R76). -/
def imm24Ok (v : Int) : Bool := decide (0 ≤ v ∧ v < 2 ^ 24)

/-- The range of a control byte: 0..255 (R70, R152). -/
def controlOk (v : Int) : Bool := decide (0 ≤ v ∧ v < 256)

/-- The abstract commands that have a command word (R73 to R76). -/
def Instr.wellFormed : Instr → Bool
  | .wrfreq ch v => channelOk ch && imm24Ok v
  | .wrctrl ch v => channelOk ch && controlOk v
  | .step => true
  | .render n => imm24Ok n

/-- The abstract commands that meet the preconditions of R70, whether or not a word can carry them (R85): a divider value or a
sample count may be any natural number. -/
def Instr.legal : Instr → Bool
  | .wrfreq ch v => channelOk ch && decide (0 ≤ v)
  | .wrctrl ch v => channelOk ch && controlOk v
  | .step => true
  | .render n => decide (0 ≤ n)

end Sys2Proof
end

