-- ==== Sys2Proof/Decode.lean ====
section
/-!
DEFINITION. Decode.lean: the 32-bit command word, its decoder and its encoder (30_encoding R71 to R81).
-/

namespace Sys2Proof

/-- Why a command word is illegal (R79). Every reason raises the same fault, ILLEGAL_COMMAND (R154). -/
inductive DecodeError where
  /-- `rsv` (bits 25:24) is not 0. -/
  | reservedNotZero
  /-- `op` is 0x0 or 0x5..0xF. -/
  | illegalOpcode
  /-- `op` is 0x2 and `imm[23:8]` is not 0: the word form of a control value outside 0..255. -/
  | controlTooWide
  /-- `op` is 0x3 or 0x4 and `ch` is not 0. -/
  | channelNotZero
  /-- `op` is 0x3 and `imm` is not 0. -/
  | immediateNotZero
  deriving DecidableEq, Repr

/-- `op`, bits 31:28 (R71). -/
def opField (w : Word) : BitVec 4 := w.extractLsb' 28 4

/-- `ch`, bits 27:26 (R71). -/
def chField (w : Word) : BitVec 2 := w.extractLsb' 26 2

/-- `rsv`, bits 25:24 (R71). -/
def rsvField (w : Word) : BitVec 2 := w.extractLsb' 24 2

/-- `imm`, bits 23:0 (R71). -/
def immField (w : Word) : BitVec 24 := w.extractLsb' 0 24

/-- `imm[23:8]`, which a WRCTRL word holds 0 (R74). -/
def immHighField (w : Word) : BitVec 16 := w.extractLsb' 8 16

/-- `imm[7:0]`, the control byte of a WRCTRL word (R74). -/
def immLowField (w : Word) : BitVec 8 := w.extractLsb' 0 8

/-- The decoder of R81, total on all 32-bit words; operands are zero-extended fields (R78). -/
def decode (w : Word) : Except DecodeError Instr :=
  if rsvField w ≠ 0#2 then .error .reservedNotZero
  else if opField w = 0x1#4 then .ok (.wrfreq (chField w).toNat (immField w).toNat)
  else if opField w = 0x2#4 then
    if immHighField w = 0#16 then .ok (.wrctrl (chField w).toNat (immLowField w).toNat)
    else .error .controlTooWide
  else if opField w = 0x3#4 then
    if chField w ≠ 0#2 then .error .channelNotZero
    else if immField w ≠ 0#24 then .error .immediateNotZero
    else .ok .step
  else if opField w = 0x4#4 then
    if chField w ≠ 0#2 then .error .channelNotZero
    else .ok (.render (immField w).toNat)
  else .error .illegalOpcode

/-- The bits of a command word: opcode, channel and immediate added up as R73 to R76 write them. -/
def commandWord (op : Nat) (ch v : Int) : Word :=
  BitVec.ofNat 32 (op * 0x10000000 + ch.toNat * 2 ^ 26 + v.toNat)

/-- The command word of an abstract command (R73 to R76, R81); `none` where the command has no word (R85). -/
def encode (i : Instr) : Option Word :=
  if i.wellFormed then
    some (match i with
      | .wrfreq ch v => commandWord 0x1 ch v
      | .wrctrl ch v => commandWord 0x2 ch v
      | .step => commandWord 0x3 0 0
      | .render n => commandWord 0x4 0 n)
  else none

/-- What the decoder reads from an instruction whose bits, numbered as spec/opcode_table.json numbers them, are `w`: a command is one
32-bit value, bit 0 its least significant bit (R57, R71), and every bit from `nbits` up is 0. -/
def decodeTableWord (nbits w : Nat) : Option Instr :=
  match decode (BitVec.ofNat 32 (w % 2 ^ nbits)) with
  | .ok i => some i
  | .error _ => none

end Sys2Proof
end

