-- ==== Sys2Proof/Config.lean ====
section
/-!
DEFINITION. Config.lean: what an instance is built with (00_scope R6, R8; 70_reset_and_hazards R180, R182) and the one free value.
-/

namespace Sys2Proof

/-- Default of the construction parameter `clockRate` in Hz (R6, R180). -/
def Config.defaultClockRate : Nat := 1790000

/-- Default of the construction parameter `sampleRate` in Hz (R6, R180). -/
def Config.defaultSampleRate : Nat := 44100

/-- `LFSR_SEED`: all seventeen bits one (R7, R182). -/
def Config.lfsrSeed : Lfsr := 0x1FFFF#17

/-- `INIT_PHASE[c]`: 0 for every channel (R8, D5; log entry 9). -/
def Config.initPhase : Rat := 0

/-- `BUF_CAPACITY` of `State.reset`: unbounded, the default of the open parameter (R8, R140, D15; log entry 6).
An instance with a finite capacity holds it in `State.bufCapacity`. -/
def Config.defaultBufCapacity : Option Nat := none

/-- FREE VALUE. How many of the STEPs of a RENDER that ran out of memory were done when the failure was noticed: the source does
not say (R140, U6: "any number of STEPs from 0 to n may have been applied"). It has no body, so nothing can be proved of its value;
it is applied to the counter `State.draws` and bounded by the sample count (log entry 7). -/
opaque Config.exhaustedSteps : Nat → Nat

end Sys2Proof
end

