-- ==== Sys2Proof/Machine/State.lean ====
section
/-!
DEFINITION. Machine/State.lean: the state of one engine instance (10_state R20 to R36), its results, its faults, and construction
with the default parameters (70_reset_and_hazards R180).
-/

namespace Sys2Proof.Machine

/-- The two values of a channel output, +1 and -1 (00_scope R13). -/
inductive Level where
  | plus
  | minus
  deriving DecidableEq, Repr

/-- What a fault records and the host receives in place of the command's result: one constructor per row of the list of faults
(60_exceptions R150, R157). Codes 1 to 5 are raised through `takeFault`, code 6 by `construct`. -/
inductive FaultRecord where
  /-- Code 1, raised by WRFREQ and WRCTRL: channel operand not in 0..3 (R151). -/
  | channelRange (cmd : Instr)
  /-- Code 2, raised by WRFREQ for a negative value and by WRCTRL for a value outside 0..255 (R152). -/
  | valueRange (cmd : Instr)
  /-- Code 3, raised by RENDERSEC for a negative duration and by RENDER for a negative count (R153, R130). -/
  | negativeDuration (cmd : Command)
  /-- Code 4, raised by the decoder for an illegal word, which is recorded (R154). -/
  | illegalCommand (w : Word)
  /-- Code 5, raised by RENDER n with n above `BUF_CAPACITY`; n is recorded (R155, R140). -/
  | resourceExhausted (n : Nat)
  /-- Code 6, raised by CONSTRUCT: `clockRate` < 1 or `sampleRate` < 1; nothing but the code is recorded (R156). -/
  | constructRange
  deriving DecidableEq, Repr

/-- What the host receives for one command (R9, R70, R157). -/
inductive Result where
  /-- WRFREQ and WRCTRL return nothing. -/
  | nothing
  /-- STEP returns the mix `M / 60`, held as its numerator `M` (R110, R117, D19). -/
  | mix (M : Int)
  /-- RENDER returns its buffer, the samples in the order they were made (R53, R130). -/
  | buffer (samples : List Sample)
  /-- A faulting command returns the fault's code and record (R157). -/
  | fault (r : FaultRecord)
  deriving DecidableEq, Repr

/-- Reasons the machine has no step. -/
inductive Fault where
  /-- Raised by `step` and by every meaning in a state whose `faulted` is true: "A model should make a state with `faulted` true
  non-final and give it no outgoing step" (R158). Safe: nothing can be proved of a run past a fault. -/
  | engineFaulted
  /-- Raised by `construct` only: no instance is created, and the host receives `r`, which is CONSTRUCT_RANGE, code 6 (R156; log
  entry 13). Safe. -/
  | noInstance (r : FaultRecord)
  deriving DecidableEq, Repr

/-- Reasons an instruction has no meaning. -/
inductive Refusal where
  /-- Raised by an arm of `exec` whose instruction has no meaning yet; no arm is left so. Safe. -/
  | notModelled (mnemonic : String)
  deriving DecidableEq, Repr

/-- One engine instance. The first eight fields are the spec's state (R20), in parallel arrays (R21); `bufCapacity` is the spec's
open parameter (R140); the last three are the model's own (log entries 1, 2 and 7). -/
structure State where
  /-- Base clock in Hz, fixed at construction (R22). -/
  clockRate : Nat
  /-- Output sample rate in Hz, fixed at construction (R23). -/
  sampleRate : Nat
  /-- The frequency registers, unbounded naturals (R24). -/
  frequencyDivider : Vector Nat 4
  /-- The control registers (R25, R26). -/
  controlByte : Vector Byte 4
  /-- The one noise register of the instance (R27). -/
  lfsrState : Lfsr
  /-- The phase accumulators, exact rationals (R28). -/
  channelPhase : Vector Rat 4
  /-- The last output level of each channel; no value before the first STEP (R29, D6; log entry 8). -/
  channelOutput : Vector (Option Level) 4
  /-- The fault condition, never cleared (R36). -/
  faulted : Bool
  /-- `BUF_CAPACITY` of this instance: the largest sample count a RENDER can return, `none` for unbounded (R140, D15). -/
  bufCapacity : Option Nat
  /-- The commands the host has issued and the engine has not taken, oldest first (R60, R163). -/
  port : List Command
  /-- The results the host has received, oldest first (R9). -/
  results : List Result
  /-- How many free values have been taken. -/
  draws : Nat
  deriving DecidableEq, Repr

/-- The state CONSTRUCT leaves, for parameters that are in range (R41, R180). -/
def State.fresh (clockRate sampleRate : Nat) (bufCapacity : Option Nat) : State where
  clockRate := clockRate
  sampleRate := sampleRate
  frequencyDivider := #v[0, 0, 0, 0]
  controlByte := #v[0#8, 0#8, 0#8, 0#8]
  lfsrState := Config.lfsrSeed
  channelPhase := #v[Config.initPhase, Config.initPhase, Config.initPhase, Config.initPhase]
  channelOutput := #v[none, none, none, none]
  faulted := false
  bufCapacity := bufCapacity
  port := []
  results := []
  draws := 0

/-- The machine right after reset: CONSTRUCT with no arguments (R41, R180, R181). -/
def State.reset : State :=
  State.fresh Config.defaultClockRate Config.defaultSampleRate Config.defaultBufCapacity

end Sys2Proof.Machine
end

