-- ==== Sys2Proof/Machine/Ops.lean ====
section
/-!
DEFINITION. Machine/Ops.lean: the named operations over the state: register writes, generator state, results, taking a fault, the
faulted condition (20_memory R51, R58; 60_exceptions R157 to R159).
-/

namespace Sys2Proof.Machine

/-! ### Reads of one state element, under the names of R14 -/

/-- `freq[c]` (R14, R24). -/
def freq (s : State) (c : Chan) : Nat := s.frequencyDivider[c]

/-- `ctrl[c]` (R14, R25). -/
def ctrl (s : State) (c : Chan) : Byte := s.controlByte[c]

/-- `phase[c]` (R14, R28). -/
def phase (s : State) (c : Chan) : Rat := s.channelPhase[c]

/-- `out[c]`; no value before the first STEP (R14, R29). -/
def out (s : State) (c : Chan) : Option Level := s.channelOutput[c]

/-! ### Writes of one state element -/

/-- `freq[c] <- v` (R24, R90). -/
def writeFreq (c : Chan) (v : Nat) (s : State) : State :=
  { s with frequencyDivider := s.frequencyDivider.set c v }

/-- `ctrl[c] <- v`, the whole byte (R25, R58, R92). -/
def writeCtrl (c : Chan) (v : Byte) (s : State) : State :=
  { s with controlByte := s.controlByte.set c v }

/-- `phase[c] <- p` (R28). -/
def writePhase (c : Chan) (p : Rat) (s : State) : State :=
  { s with channelPhase := s.channelPhase.set c p }

/-- `out[c] <- l` (R29). -/
def writeOutput (c : Chan) (l : Level) (s : State) : State :=
  { s with channelOutput := s.channelOutput.set c (some l) }

/-- `lfsr <- l` (R27). -/
def writeLfsr (l : Lfsr) (s : State) : State :=
  { s with lfsrState := l }

/-! ### What the host receives -/

/-- The host receives the result of the command in progress (R9). -/
def deliver (r : Result) (s : State) : State :=
  { s with results := s.results ++ [r] }

/-- The code number of a fault (R150, D14). -/
def faultCode : FaultRecord → Nat
  | .channelRange _ => 1
  | .valueRange _ => 2
  | .negativeDuration _ => 3
  | .illegalCommand _ => 4
  | .resourceExhausted _ => 5
  | .constructRange => 6

/-- Taking a fault (R157): no state element but `faulted` is written, and the host receives the fault in place of the result. There
is no handler, no saved state and no return (R159). -/
def takeFault (r : FaultRecord) (s : State) : State :=
  deliver (.fault r) { s with faulted := true }

/-- The faulted condition (R158): while `faulted` is true the engine executes nothing and has no step. -/
def whileLive (s : State) (body : Host.Outcome State Fault Refusal) : Host.Outcome State Fault Refusal :=
  if s.faulted then .fault .engineFaulted else body

/-- One more free value has been taken (log entry 7). -/
def takeDraw (s : State) : State := { s with draws := s.draws + 1 }

/-! ### The host's side of the command port -/

/-- The commands issued and not yet taken become `cmds`. -/
def setPort (cmds : List Command) (s : State) : State := { s with port := cmds }

/-- The host issues one more command, after every command it has issued before (R60). -/
def issue (cmd : Command) (s : State) : State := setPort (s.port ++ [cmd]) s

end Sys2Proof.Machine
end

