-- ==== Sys2Proof/Machine/Operands.lean ====
section
/-!
DEFINITION. Machine/Operands.lean: operand checks of the abstract commands, fields of a control byte, register numbers, levels and
volumes as numbers, bytes of a sample (10_state R26; 20_memory R51, R55, R56; 42_sample_step R111, R115).
-/

namespace Sys2Proof.Machine

/-- The channel an operand names; `none` outside 0..3, which raises CHANNEL_RANGE and is never wrapped or ignored (R151). -/
def channelOf (ch : Int) : Option Chan :=
  if h : 0 ≤ ch ∧ ch < 4 then some ⟨ch.toNat, by omega⟩ else none

/-- The control byte an operand names; `none` outside 0..255, which raises VALUE_RANGE and is never truncated (R152, D29). -/
def controlOf (v : Int) : Option Byte :=
  if 0 ≤ v ∧ v < 256 then some (BitVec.ofNat 8 v.toNat) else none

/-- The divider value an operand names; `none` for a negative value, which raises VALUE_RANGE (R152). -/
def dividerOf (v : Int) : Option Nat :=
  if v < 0 then none else some v.toNat

/-- `VOL`, the volume 0..15: `controlByte & 0x0F` (`VOLUME_MASK`, R7, R26, R115). -/
def volume (b : Byte) : Nat := (b &&& 0x0F#8).toNat

/-- `channelOutput` read as a number: +1 or -1 (R13). -/
def Level.toInt : Level → Int
  | .plus => 1
  | .minus => -1

/-- The level of a noise bit: +1 for 1, -1 for 0 (R113). -/
def levelOfBit (b : Bool) : Level := if b then .plus else .minus

/-- Which of a channel's two registers: 0 the frequency register, 1 the control register (R51). -/
def registerNumber (c : Chan) (control : Bool) : Nat := 2 * c.val + (if control then 1 else 0)

/-- `RegWrite(r, v)` of R51: an even register is a frequency register, an odd one a control register. DESIGN CHOICE, safe (log entry
26): R51 gives no outcome for a value above 255 in a control register, which no command can bring there (R152); here its low 8 bits
are stored. -/
def regWrite (r : Fin 8) (v : Nat) (s : State) : State :=
  if r.val % 2 = 0 then writeFreq ⟨r.val / 2, by omega⟩ v s
  else writeCtrl ⟨(r.val - 1) / 2, by omega⟩ (BitVec.ofNat 8 v) s

/-- The two bytes of one sample, bits 7..0 first (R55). -/
def sampleBytes (x : Sample) : List Byte := [x.extractLsb' 0 8, x.extractLsb' 8 8]

/-- The byte form of a buffer (R53, R55): no header, no length, samples one after the other (R137). -/
def pcmBytes (buf : List Sample) : List Byte := buf.flatMap sampleBytes

/-- The mix a STEP returns, as the rational `M / 60` (R110, R117). -/
def mixValue (M : Int) : Rat := M / 60

end Sys2Proof.Machine
end

