-- ==== Sys2Proof/Machine/RegWrite.lean ====
section
/-!
DEFINITION. Machine/RegWrite.lean: the register-write commands WRFREQ and WRCTRL (40_register_writes R90, R92).
-/

namespace Sys2Proof.Machine

/-- WRFREQ ch, v (R90): the channel is checked first, then the value (R161); then `freq[ch] <- v` and nothing else. -/
def execWrfreq (ch v : Int) (s : State) : Host.Outcome State Fault Refusal :=
  whileLive s (
    match channelOf ch with
    | none => .next (takeFault (.channelRange (.wrfreq ch v)) s)
    | some c =>
      match dividerOf v with
      | none => .next (takeFault (.valueRange (.wrfreq ch v)) s)
      | some n => .next (deliver .nothing (writeFreq c n s)))

/-- WRCTRL ch, v (R92): the channel is checked first, then the value (R161); then `ctrl[ch] <- v`, all eight bits, and nothing
else. -/
def execWrctrl (ch v : Int) (s : State) : Host.Outcome State Fault Refusal :=
  whileLive s (
    match channelOf ch with
    | none => .next (takeFault (.channelRange (.wrctrl ch v)) s)
    | some c =>
      match controlOf v with
      | none => .next (takeFault (.valueRange (.wrctrl ch v)) s)
      | some b => .next (deliver .nothing (writeCtrl c b s)))

end Sys2Proof.Machine
end

