-- ==== Sys2Proof/Machine/Quant.lean ====
section
/-!
DEFINITION. Machine/Quant.lean: the PCM quantiser and the buffer under construction (43_render_quantize R132 to R134; 20_memory R54).
-/

namespace Sys2Proof.Machine

/-- `round` of R133: the nearest integer, and of two equally near the one farther from zero (`ROUND_TIES`, D7). -/
def roundHalfAway (q : Rat) : Int :=
  if 0 ≤ q then (q + 1 / 2).floor else -(-q + 1 / 2).floor

/-- QUANT(M) as R132 defines it: `round((M / 60) * 32767 * (1/2))`, exact before the one rounding. -/
def quant (M : Int) : Int := roundHalfAway (mixValue M * 32767 * (1 / 2))

/-- The integer-only form of R134: `sgn(M) * floor((32767 * |M| + 60) / 120)`. -/
def quantInt (M : Int) : Int := M.sign * ((32767 * M.natAbs + 60) / 120 : Nat)

/-- The quantised sample as its 16-bit two's-complement pattern (R56, D17). -/
def quantSample (M : Int) : Sample := BitVec.ofInt 16 (quant M)

/-- `BufAppend(buf, s)`: one sample more, at the end (R54). -/
def bufAppend (buf : List Sample) (x : Sample) : List Sample := buf ++ [x]

end Sys2Proof.Machine
end

