-- ==== Sys2Proof/Machine/Flags.lean ====
section
/-!
DEFINITION. Machine/Flags.lean: the block has no status flag, condition code or predicate (10_state R39). What stands in their place
are its data-dependent selections (44_arithmetic R147 b) and the one capacity test of RENDER (43_render R140).
-/

namespace Sys2Proof.Machine

/-- The wrap test: "crosses 1.0" is `p >= 1`, a sum of exactly 1 included (R112, D3). -/
def wraps (p : Rat) : Bool := decide (1 ≤ p)

/-- The noise test: any of bits 7:5 set (`NOISE_MASK` = 0xE0, R7, R26, R113). -/
def isNoise (b : Byte) : Bool := b &&& 0xE0#8 != 0#8

/-- The capacity test of RENDER: `n > BUF_CAPACITY`, never true when the capacity is unbounded (R130, R140). -/
def exceedsCapacity (n : Nat) : Option Nat → Bool
  | none => false
  | some cap => decide (cap < n)

end Sys2Proof.Machine
end

