-- ==== Sys2Proof/Machine/Noise.lean ====
section
/-!
DEFINITION. Machine/Noise.lean: NSTEP, the shared noise source (41_noise_lfsr R100, R105).
-/

namespace Sys2Proof.Machine

/-- `LFSR_TAP_MASK` = 0x12000: bits 16 and 13 (R7, R101, C1). -/
def lfsrTapMask : Lfsr := 0x12000#17

/-- The bit NSTEP returns: bit 0, extracted before the shift (R100). -/
def noiseBit (l : Lfsr) : Bool := l.getLsbD 0

/-- The register after NSTEP: shifted right by one, and XORed with the mask if the bit shifted out was 1 (R100). The state 0 maps to
0 and is not repaired (R106, R169). -/
def noiseNext (l : Lfsr) : Lfsr :=
  if noiseBit l then (l >>> 1) ^^^ lfsrTapMask else l >>> 1

/-- NSTEP() in the state-threading form of R105: the returned bit, and the state with `lfsrState` advanced. -/
def nstep (s : State) : Bool × State :=
  (noiseBit s.lfsrState, writeLfsr (noiseNext s.lfsrState) s)

end Sys2Proof.Machine
end

