-- ==== Sys2Proof/Machine/Sample.lean ====
section
/-!
DEFINITION. Machine/Sample.lean: the sample step, command STEP (42_sample_step R110 to R117).
-/

namespace Sys2Proof.Machine

/-- Sub-step (a): `divisor = frequencyDivider[c] + 1`, at least 1 (R111). -/
def divisor (s : State) (c : Chan) : Nat := freq s c + 1

/-- Sub-step (b): the phase increment `clockRate / (divisor * sampleRate)`, an exact rational (R112, D2). -/
def phaseIncrement (s : State) (c : Chan) : Rat :=
  (s.clockRate : Rat) / ((divisor s c * s.sampleRate : Nat) : Rat)

/-- Sub-step (c), the sum `p = phase[c] + inc` (R112). -/
def phaseSum (s : State) (c : Chan) : Rat := phase s c + phaseIncrement s c

/-- The wrap: 1 is subtracted exactly once, whatever the size of `p` (`PHASE_WRAP` = single, R112, D4; log entry 10). -/
def wrapPhase (p : Rat) : Rat := if wraps p then p - 1 else p

/-- The tone level: +1 on the sample that wraps, -1 on every other (R112). -/
def toneLevel (p : Rat) : Level := if wraps p then .plus else .minus

/-- Sub-step (d): the level that enters the mix. In noise mode, whatever the volume, one NSTEP is taken and its bit replaces the tone
level; in tone mode NSTEP is not invoked (R113). -/
def selectLevel (c : Chan) (tone : Level) (s : State) : Level × State :=
  if isNoise (ctrl s c) then (levelOfBit (nstep s).1, (nstep s).2) else (tone, s)

/-- The pass of the channel loop for channel `c` on the state and the running sum M: the phase is updated in either mode (sub-step c),
the level is chosen (d) and kept in `channelOutput`, and level times volume is added to M (e, f) (R110, R112, R113, R115, R116). -/
def channelStep (acc : State × Int) (c : Chan) : State × Int :=
  let p := phaseSum acc.1 c
  let r := selectLevel c (toneLevel p) (writePhase c (wrapPhase p) acc.1)
  (writeOutput c r.1 r.2, acc.2 + r.1.toInt * (volume (ctrl acc.1 c) : Int))

/-- The order of the channel loop: ascending (R114, D26). -/
def channelOrder : List Chan := [0, 1, 2, 3]

/-- STEP(): all four channels advance by one sample; the mix numerator M starts at 0 (R110, R116, R117). STEP cannot fault. -/
def sampleStep (s : State) : State × Int := channelOrder.foldl channelStep (s, 0)

/-- STEP as the host issues it: it returns the mix and produces no PCM sample (R110, R118, R136). -/
def execStep (s : State) : Host.Outcome State Fault Refusal :=
  whileLive s (
    let r := sampleStep s
    .next (deliver (.mix r.2) r.1))

end Sys2Proof.Machine
end

