-- ==== Sys2Proof/Machine/Render.lean ====
section
/-!
DEFINITION. Machine/Render.lean: buffer rendering, command RENDER (43_render_quantize R130, R131, R140) and the pseudo-command
RENDERSEC (30_encoding R83).
-/

namespace Sys2Proof.Machine

/-- `n` sample steps, the mixes dropped: the state after them. -/
def sampleSteps : Nat → State → State
  | 0, s => s
  | n + 1, s => sampleSteps n (sampleStep s).1

/-- The sample loop of RENDER: exactly `n` STEPs, each result quantised and appended to the buffer (R130, R131). -/
def renderLoop : Nat → State → List Sample → State × List Sample
  | 0, s, buf => (s, buf)
  | n + 1, s, buf =>
    let r := sampleStep s
    renderLoop n r.1 (bufAppend buf (quantSample r.2))

/-- RESOURCE_EXHAUSTED (R140, R155): no buffer, and the state elements are those of some number of STEPs from 0 to `n` that the spec
leaves open (U6): a free value, bounded by `n` (log entry 7). -/
def exhaust (n : Nat) (s : State) : State :=
  takeFault (.resourceExhausted n)
    (sampleSteps (min n (Config.exhaustedSteps s.draws)) (takeDraw s))

/-- The body of RENDER for a sample count that is not negative (R130): the capacity test, the loop, the returned buffer. -/
def renderCount (n : Nat) (s : State) : State :=
  if exceedsCapacity n s.bufCapacity then exhaust n s
  else
    let r := renderLoop n s []
    deliver (.buffer r.2) r.1

/-- RENDER n (R130): a negative count raises NEGATIVE_DURATION before anything runs. -/
def execRender (n : Int) (s : State) : Host.Outcome State Fault Refusal :=
  whileLive s (
    if n < 0 then .next (takeFault (.negativeDuration (.call (.render n))) s)
    else .next (renderCount n.toNat s))

/-- `sampleCount = floor(sampleRate * durationSeconds)`, the product exact before the floor (R83, R141, D27). -/
def sampleCount (sampleRate : Nat) (d : Rat) : Int := ((sampleRate : Rat) * d).floor

/-- RENDERSEC d, the source's `renderBuffer(durationSeconds)` (R83, R130): a negative duration raises NEGATIVE_DURATION and no count
is computed (R153); otherwise RENDER of the count. -/
def execRenderSec (d : Rat) (s : State) : Host.Outcome State Fault Refusal :=
  whileLive s (
    if d < 0 then .next (takeFault (.negativeDuration (.renderSec d)) s)
    else execRender (sampleCount s.sampleRate d) s)

/-- The largest sample count a command word carries (R76). -/
def maxWordCount : Nat := 16777215

/-- The counts of R83's expansion: `n` itself where a word carries it, else counts of at most 16,777,215 that sum to `n`.
DESIGN CHOICE, safe (log entry 25): R83 leaves open which such counts; these are full-size pieces first and the remainder last, the
remainder 0 included when `n` is a multiple of 16,777,215. -/
def wordCounts (n : Nat) : List Nat :=
  if n ≤ maxWordCount then [n]
  else List.replicate (n / maxWordCount) maxWordCount ++ [n % maxWordCount]

/-- RENDERSEC's expansion into RENDERs that have command words, done by the host or assembler (R83); a negative duration has none. -/
def expandRenderSec (sampleRate : Nat) (d : Rat) : Option (List Instr) :=
  if d < 0 then none
  else some ((wordCounts (sampleCount sampleRate d).toNat).map fun n : Nat => .render (n : Int))

end Sys2Proof.Machine
end

