-- ==== Sys2Proof/Machine/Dispatch.lean ====
section
/-!
DEFINITION. Machine/Dispatch.lean: one arm per constructor of Instr, each a direct call of its meaning.
-/

namespace Sys2Proof.Machine

def exec (i : Instr) (s : State) : Host.Outcome State Fault Refusal :=
  match i with
  | .wrfreq ch v => Sys2Proof.Machine.execWrfreq ch v s
  | .wrctrl ch v => Sys2Proof.Machine.execWrctrl ch v s
  | .step => Sys2Proof.Machine.execStep s
  | .render n => Sys2Proof.Machine.execRender n s

end Sys2Proof.Machine
end

