-- ==== Sys2Proof/Machine/Port.lean ====
section
/-!
DEFINITION. Machine/Port.lean: the command port: taking the host's next command and serving it (20_memory R60; 30_encoding R70, R71,
R81; 60_exceptions R154, R161).
-/

namespace Sys2Proof.Machine

/-- A command word: decoding comes first, and an illegal word raises ILLEGAL_COMMAND and is recorded (R81, R154, R161). -/
def serveWord (w : Word) (s : State) : Host.Outcome State Fault Refusal :=
  match decode w with
  | .ok i => exec i s
  | .error _ => whileLive s (.next (takeFault (.illegalCommand w) s))

/-- One command of the host, at whichever level it was issued (R70, R71, R83). -/
def serve (cmd : Command) (s : State) : Host.Outcome State Fault Refusal :=
  match cmd with
  | .word w => serveWord w s
  | .call i => exec i s
  | .renderSec d => execRenderSec d s

/-- The engine between commands: it does nothing until the host issues one (R9, R170; log entry 3). -/
def idle (s : State) : Host.Outcome State Fault Refusal := whileLive s (.next s)

/-- The engine takes the oldest command the host has issued and runs it to completion (R60). -/
def serveNext (s : State) : Host.Outcome State Fault Refusal :=
  match s.port with
  | [] => idle s
  | cmd :: rest => serve cmd (setPort rest s)

/-- The state with one command word placed as the very next command (log entry 4). -/
def placeWord (w : Word) (s : State) : State := setPort (.word w :: s.port) s

end Sys2Proof.Machine
end

