-- ==== Sys2Proof/Machine/Step.lean ====
section
/-!
DEFINITION. Machine/Step.lean: one step of the machine, which is one command of the host (20_memory R60).
-/

namespace Sys2Proof.Machine

/-- One step: the oldest command issued and not yet taken runs to completion; there is no program counter (R37, R60). -/
def step (s : State) : Host.Outcome State Fault Refusal := serveNext s

/-- `s` with the command word whose bits are `w`, numbered as spec/opcode_table.json numbers them, as the next command on the port:
the next step takes and runs exactly it (log entry 4). -/
def State.withFetchWord (s : State) (nbits w : Nat) : State :=
  placeWord (BitVec.ofNat 32 (w % 2 ^ nbits)) s

end Sys2Proof.Machine
end

