-- ==== Sys2Proof/Machine/Construct.lean ====
section
/-!
DEFINITION. Machine/Construct.lean: CONSTRUCT, the only reset (70_reset_and_hazards R180, R181; 60_exceptions R156).
-/

namespace Sys2Proof.Machine

/-- CONSTRUCT clockRate, sampleRate (R180): either argument may be omitted and takes its default; a parameter below 1 raises
CONSTRUCT_RANGE and no instance is created (R156). `cap` is the platform's `BUF_CAPACITY` (R140). -/
def construct (clockRate sampleRate : Option Int) (cap : Option Nat) : Host.Outcome State Fault Refusal :=
  let clock := clockRate.getD Config.defaultClockRate
  let rate := sampleRate.getD Config.defaultSampleRate
  if clock < 1 ∨ rate < 1 then .fault (.noInstance .constructRange)
  else .next (State.fresh clock.toNat rate.toNat cap)

end Sys2Proof.Machine
end

