-- ==== Sys2Proof/Machine/Instances.lean ====
section
/-!
DEFINITION. Machine/Instances.lean: several engines side by side (60_exceptions R167; 70_reset_and_hazards R180, R181).
-/

namespace Sys2Proof.Machine

/-- Engines side by side, each with its own complete state; they share nothing (R167). Numbering them by their place in the list is
the model's (the source gives no identifiers). -/
abbrev Instances := List State

/-- CONSTRUCT beside the engines that exist: a fresh one joins them and none of them changes (R167, R180). -/
def addInstance (clockRate sampleRate : Option Int) (cap : Option Nat) (all : Instances) :
    Host.Outcome Instances Fault Refusal :=
  match construct clockRate sampleRate cap with
  | .next s => .next (all ++ [s])
  | .fault r => .fault r
  | .refused r => .refused r

/-- Engine number `k` takes one step (R167). A number that names no engine has no step. -/
def stepInstance (k : Nat) (all : Instances) : Option (Host.Outcome Instances Fault Refusal) :=
  match all[k]? with
  | none => none
  | some s =>
    some (match step s with
      | .next t => .next (all.set k t)
      | .fault r => .fault r
      | .refused r => .refused r)

end Sys2Proof.Machine
end

