-- ==== Sys2Proof/Safety.lean ====
section
/-!
DEFINITION. Safety.lean: the terms the claims are stated in: a live engine, running a list of commands, the engine's own state, the
closed form of one sample step, the invariant, the reachable states.
-/

namespace Sys2Proof.Machine

/-! ### Runs -/

/-- A state in which the engine executes commands (R158). -/
abbrev Live (s : State) : Prop := s.faulted = false

/-- The commands of a list served in order, each complete before the next (R60); stops where the machine has no step. -/
def serveAll : List Command → State → Host.Outcome State Fault Refusal
  | [], s => .next s
  | cmd :: rest, s =>
    match serve cmd s with
    | .next t => serveAll rest t
    | .fault r => .fault r
    | .refused r => .refused r

/-- `k` STEP commands. -/
def stepCommands (k : Nat) : List Command := List.replicate k (.call .step)

/-- The engine's own state: all of it but the host's two lists and the free-value counter (R20, R42). -/
def engine (s : State) : State := { s with port := [], results := [], draws := 0 }

/-- Whether a RENDER of `n` samples fits the instance's `BUF_CAPACITY` (R140). -/
abbrev Fits (n : Int) (s : State) : Prop := exceedsCapacity n.toNat s.bufCapacity = false

/-- The abstract commands that can be executed in `s` without a fault: operands in range, and the buffer within capacity (R162). -/
def Executable (i : Instr) (s : State) : Prop :=
  i.legal = true ∧ match i with
    | .render n => Fits n s
    | _ => True

/-- The outcome `o`, answered in `s`, is a fault taken as R157 says: `faulted` is set, the host receives the fault, and every other
field is as in `s`. -/
def FaultsWith (o : Host.Outcome State Fault Refusal) (r : FaultRecord) (s : State) : Prop :=
  ∃ t, o = .next t ∧ t.faulted = true ∧ t.results = s.results ++ [.fault r] ∧
    { t with faulted := s.faulted, results := s.results } = s

/-- The command that writes register number `r` of the register space (R51). -/
def writeRegister (r : Fin 8) (v : Nat) : Instr :=
  if r.val % 2 = 0 then .wrfreq (r.val / 2 : Nat) v else .wrctrl (r.val / 2 : Nat) v

/-- The values register number `r` can be given: any natural number, or a byte (R51, R70). -/
def RegisterValue (r : Fin 8) (v : Nat) : Prop := r.val % 2 = 0 ∨ v < 256

/-! ### One sample step, written without a loop -/

/-- The number of channels in noise mode (R103). -/
def noiseCount (s : State) : Nat := (channelOrder.filter fun c => isNoise (ctrl s c)).length

/-- The number of noise-mode channels below channel `c`: which of the successive LFSR bits channel `c` gets (R103). -/
def noiseRank (s : State) (c : Chan) : Nat :=
  (channelOrder.filter fun d => decide (d < c) && isNoise (ctrl s d)).length

/-- The level of channel `c` in the sample that STEP makes from `s` (R112, R113, R103). -/
def stepLevel (s : State) (c : Chan) : Level :=
  if isNoise (ctrl s c) then levelOfBit (noiseBit (noiseNext^[noiseRank s c] s.lfsrState))
  else toneLevel (phaseSum s c)

/-- What channel `c` adds to the mix numerator of the sample that STEP makes from `s` (R117). -/
def stepTerm (s : State) (c : Chan) : Int := (stepLevel s c).toInt * (volume (ctrl s c) : Int)

/-- The mix numerator M of the sample that STEP makes from `s` (R117). -/
def stepMix (s : State) : Int := stepTerm s 0 + stepTerm s 1 + stepTerm s 2 + stepTerm s 3

/-! ### Invariant -/

/-- The values a result can hold: |M| <= 60 (R33, R117) and samples in -16384..16384 (R134). -/
def resultInRange : Result → Bool
  | .nothing => true
  | .mix M => decide (-60 ≤ M ∧ M ≤ 60)
  | .buffer b => b.all fun x => decide (-16384 ≤ x.toInt ∧ x.toInt ≤ 16384)
  | .fault _ => true

/-- Whether a result reports a fault. -/
def isFaultResult : Result → Bool
  | .fault _ => true
  | _ => false

/-- What holds in every state of an instance (R22, R23, R30 to R33, R29, R36): both rates at least 1; `lfsrState` never 0; no phase
negative; the four outputs all without a value or all with one; every result in range; `faulted` exactly when a fault was reported. -/
abbrev State.Inv (s : State) : Prop :=
  1 ≤ s.clockRate ∧ 1 ≤ s.sampleRate ∧ s.lfsrState ≠ 0#17 ∧ (∀ c : Chan, 0 ≤ phase s c) ∧
    ((∀ c : Chan, out s c = none) ∨ (∀ c : Chan, out s c ≠ none)) ∧
    (∀ r ∈ s.results, resultInRange r = true) ∧ s.faulted = s.results.any isFaultResult

/-- Channel `c` makes the pulse train of R119: phase in [0,1), increment at most 1 (R32). -/
abbrev InRange (s : State) (c : Chan) : Prop :=
  0 ≤ phase s c ∧ phase s c < 1 ∧ phaseIncrement s c ≤ 1

/-- Channel `c` is in tone mode (R26, R113). -/
abbrev ToneMode (s : State) (c : Chan) : Prop := isNoise (ctrl s c) = false

/-! ### Reachable states -/

/-- The states an instance can come to: constructed, given commands by the host, and stepped (R60, R180). -/
inductive Reachable : State → Prop where
  | constructed {s : State} (clockRate sampleRate : Option Int) (cap : Option Nat)
      (h : construct clockRate sampleRate cap = .next s) : Reachable s
  | issued {s : State} (cmd : Command) (h : Reachable s) : Reachable (issue cmd s)
  | stepped {s t : State} (h : Reachable s) (hs : step s = .next t) : Reachable t

/-! ### Noninterference -/

/-- Two control bytes that no rule can tell apart: same mode, same volume; bit 4 and the choice among the seven nonzero NOISE values
are free (R26). -/
def SameControl (a b : Byte) : Prop := isNoise a = isNoise b ∧ volume a = volume b

/-- Two states that differ only in control bits no rule reads, and in the last outputs, which only STEP reads and only after writing
them (R26, R29). -/
def SameSound (s t : State) : Prop :=
  { s with controlByte := t.controlByte, channelOutput := t.channelOutput } = t ∧
    ∀ c : Chan, SameControl (ctrl s c) (ctrl t c)

end Sys2Proof.Machine
end

