-- ==== Sys2Proof/Certificates/Slice0/Obligations.lean ====
section
/-!
DEFINITION. Certificates/Slice0/Obligations.lean: the statements for the provers, each about every state and operand it names; the
rule or section it formalises is in its docstring and in OBLIGATIONS.json.

The command port, the list of results and the free-value counter are the model's own fields (log entries 1, 2 and 7): where a
statement says that the port or the counter is unchanged, or that one result is added to the list, that clause says in the model's
terms what the spec says of commands in order and of what the host receives.
-/

open Sys2Proof Sys2Proof.Machine

/-! ### Command words -/

/-- R81. The decoder answers what the rule's pseudocode answers, the fields taken by division and remainder; decoding the word of an
encodable command gives the command back; encoding what a legal word decodes to gives the word back (the round trip is the spec's
own inference, so the basis is 'derived'). -/
def Obligations.DecodeEncodeAgree : Prop :=
  (∀ w : Word, (decode w).toOption =
    (let op := w.toNat / 2 ^ 28
     let ch := w.toNat / 2 ^ 26 % 4
     let rsv := w.toNat / 2 ^ 24 % 4
     let imm := w.toNat % 2 ^ 24
     if rsv ≠ 0 then none
     else if op = 1 then some (.wrfreq (ch : Nat) (imm : Nat))
     else if op = 2 ∧ imm / 2 ^ 8 = 0 then some (.wrctrl (ch : Nat) (imm % 2 ^ 8 : Nat))
     else if op = 3 ∧ ch = 0 ∧ imm = 0 then some .step
     else if op = 4 ∧ ch = 0 then some (.render (imm : Nat))
     else none)) ∧
  (∀ i : Instr, i.wellFormed = true → ∃ w, encode i = some w ∧ decode w = .ok i) ∧
  (∀ (w : Word) (i : Instr), decode w = .ok i → encode i = some w)

/-- R154, with the list of R79 written out by division and remainder: a word is illegal exactly then, and a live engine given an
illegal word takes the fault ILLEGAL_COMMAND, code 4, recording the word, and nothing but `faulted` changes. -/
def Obligations.IllegalWordsFault : Prop :=
  ∀ w : Word,
    ((∃ e, decode w = .error e) ↔
      (let op := w.toNat / 2 ^ 28
       let ch := w.toNat / 2 ^ 26 % 4
       let rsv := w.toNat / 2 ^ 24 % 4
       let imm := w.toNat % 2 ^ 24
       op = 0 ∨ 5 ≤ op ∨ rsv ≠ 0 ∨ ((op = 3 ∨ op = 4) ∧ ch ≠ 0) ∨ (op = 3 ∧ imm ≠ 0) ∨ (op = 2 ∧ imm / 2 ^ 8 ≠ 0))) ∧
    faultCode (.illegalCommand w) = 4 ∧
    ∀ s : State, Live s → (∃ e, decode w = .error e) → FaultsWith (serve (.word w) s) (.illegalCommand w) s

/-- R73. The words of WRFREQ are those of its mask and match, every one legal; the word of WRFREQ ch, v; a divider value of 2^24 or
more has no word and a meaning as an abstract command. -/
def Obligations.WrfreqWords : Prop :=
  (∀ w : Word, (∃ ch v, decode w = .ok (.wrfreq ch v)) ↔ w &&& 0xF3000000#32 = 0x10000000#32) ∧
  (∀ ch v : Nat, ch < 4 → v < 2 ^ 24 →
    encode (.wrfreq ch v) = some (BitVec.ofNat 32 (0x10000000 + (ch <<< 26) + v)) ∧
      decode (BitVec.ofNat 32 (0x10000000 + (ch <<< 26) + v)) = .ok (.wrfreq ch v)) ∧
  (∀ (c : Chan) (v : Nat), 2 ^ 24 ≤ v → encode (.wrfreq (c.val : Int) v) = none ∧
    ∀ s : State, Live s → ∃ t, exec (.wrfreq (c.val : Int) v) s = .next t ∧ freq t c = v)

/-- R74. The words of WRCTRL are those of its mask and match; the word of WRCTRL ch, v for all 256 values; a word with `op` 2 and
`imm[23:8]` not 0 is illegal. -/
def Obligations.WrctrlWords : Prop :=
  (∀ w : Word, (∃ ch v, decode w = .ok (.wrctrl ch v)) ↔ w &&& 0xF3FFFF00#32 = 0x20000000#32) ∧
  (∀ ch v : Nat, ch < 4 → v < 256 →
    encode (.wrctrl ch v) = some (BitVec.ofNat 32 (0x20000000 + (ch <<< 26) + v)) ∧
      decode (BitVec.ofNat 32 (0x20000000 + (ch <<< 26) + v)) = .ok (.wrctrl ch v)) ∧
  (∀ w : Word, w.toNat / 2 ^ 28 = 2 → w.toNat / 2 ^ 8 % 2 ^ 16 ≠ 0 → ∃ e, decode w = .error e)

/-- R75 and 30_encoding section 2 for RENDER. STEP is the one word 0x30000000. The words of RENDER are those of its mask and match,
and the word of RENDER n is 0x40000000 + n. -/
def Obligations.StepAndRenderWords : Prop :=
  (∀ w : Word, decode w = .ok .step ↔ w &&& 0xFFFFFFFF#32 = 0x30000000#32) ∧
  encode .step = some 0x30000000#32 ∧
  (∀ w : Word, (∃ n, decode w = .ok (.render n)) ↔ w &&& 0xFF000000#32 = 0x40000000#32) ∧
  (∀ n : Nat, n < 2 ^ 24 → encode (.render n) = some (BitVec.ofNat 32 (0x40000000 + n)) ∧
    decode (BitVec.ofNat 32 (0x40000000 + n)) = .ok (.render n))

/-- R86. The worked encodings and the illegal examples. -/
def Obligations.WorkedWords : Prop :=
  encode (.wrfreq 0 50) = some 0x10000032#32 ∧ decode 0x10000032#32 = .ok (.wrfreq 0 50) ∧
  encode (.wrctrl 0 0x0F) = some 0x2000000F#32 ∧ decode 0x2000000F#32 = .ok (.wrctrl 0 0x0F) ∧
  encode (.wrctrl 3 0x8F) = some 0x2C00008F#32 ∧ decode 0x2C00008F#32 = .ok (.wrctrl 3 0x8F) ∧
  encode (.wrfreq 2 1000) = some 0x180003E8#32 ∧ decode 0x180003E8#32 = .ok (.wrfreq 2 1000) ∧
  encode .step = some 0x30000000#32 ∧ decode 0x30000000#32 = .ok .step ∧
  encode (.render 2205) = some 0x4000089D#32 ∧ decode 0x4000089D#32 = .ok (.render 2205) ∧
  encode (.render 441) = some 0x400001B9#32 ∧ decode 0x400001B9#32 = .ok (.render 441) ∧
  encode (.render 0) = some 0x40000000#32 ∧ decode 0x40000000#32 = .ok (.render 0) ∧
  (decode 0x00000000#32).toOption = none ∧ (decode 0xFFFFFFFF#32).toOption = none ∧
  (decode 0x11000032#32).toOption = none ∧ (decode 0x20000100#32).toOption = none ∧
  (decode 0x34000000#32).toOption = none ∧ (decode 0x30000001#32).toOption = none ∧
  (decode 0x44000010#32).toOption = none ∧ (decode 0x50000000#32).toOption = none

/-! ### Construction, instances, invariants -/

/-- R41. The state after CONSTRUCT with parameters of at least 1, each 1,790,000 or 44,100 if omitted; `channelOutput` has no value. -/
def Obligations.StateAfterConstruct : Prop :=
  (∀ (cr sr : Option Int) (cap : Option Nat), 1 ≤ cr.getD 1790000 → 1 ≤ sr.getD 44100 →
    ∃ s, construct cr sr cap = .next s ∧ (s.clockRate : Int) = cr.getD 1790000 ∧ (s.sampleRate : Int) = sr.getD 44100 ∧
      (∀ c : Chan, freq s c = 0 ∧ ctrl s c = 0#8 ∧ phase s c = 0 ∧ out s c = none) ∧
      s.lfsrState = 0x1FFFF#17 ∧ s.faulted = false) ∧
  construct none none none = .next State.reset

/-- R156. CONSTRUCT with a parameter below 1 raises CONSTRUCT_RANGE, code 6, and creates no instance (the form of the outcome is the
model's, log entry 13). -/
def Obligations.ConstructRangeFault : Prop :=
  ∀ (cr sr : Int) (cap : Option Nat),
    (cr < 1 ∨ sr < 1 → construct (some cr) (some sr) cap = .fault (.noInstance .constructRange)) ∧
    (1 ≤ cr → 1 ≤ sr → ∃ s, construct (some cr) (some sr) cap = .next s) ∧
    faultCode .constructRange = 6

/-- 60_exceptions section 4 and the corner case of CONSTRUCT: a new instance leaves every other as it was; a step of one instance
changes no other. Numbering the instances by their place in a list is the model's (log entry 17). -/
def Obligations.InstancesAreIndependent : Prop :=
  (∀ (all all' : Instances) (cr sr : Option Int) (cap : Option Nat), addInstance cr sr cap all = .next all' →
    ∃ s, construct cr sr cap = .next s ∧ all'[all.length]? = some s ∧ all'.length = all.length + 1 ∧
      ∀ j, j < all.length → all'[j]? = all[j]?) ∧
  (∀ (all all' : Instances) (k : Nat), stepInstance k all = some (.next all') →
    ∃ s t, all[k]? = some s ∧ step s = .next t ∧ all'[k]? = some t ∧ ∀ j, j ≠ k → all'[j]? = all[j]?)

/-- The invariant of 10_state section 5 holds after CONSTRUCT, in particular at reset. -/
def Obligations.ConstructedStatesMeetInvariant : Prop :=
  State.reset.Inv ∧
  ∀ (cr sr : Option Int) (cap : Option Nat) (s : State), construct cr sr cap = .next s → s.Inv

/-- 10_state section 5. Every step keeps the invariant, from every state that meets it. -/
def Obligations.StepKeepsInvariant : Prop :=
  ∀ s t : State, s.Inv → step s = .next t → t.Inv

/-- R31's first sentence and R30's first, second and fourth invariants: every state an instance can come to meets the invariant;
`lfsrState` is never 0 in it and no phase is negative. -/
def Obligations.ReachableStatesMeetInvariant : Prop :=
  ∀ s : State, Reachable s →
    s.Inv ∧ s.lfsrState ≠ 0#17 ∧ (∀ c : Chan, 0 ≤ phase s c) ∧
      ∀ M : Int, Result.mix M ∈ s.results → -1 ≤ mixValue M ∧ mixValue M ≤ 1

/-! ### Register writes -/

/-- 40_register_writes, WRFREQ. On a channel 0..3 and a value that is not negative a live engine completes: the named divider holds
the value, the other three, every other field and the port are unchanged, and nothing is returned. -/
def Obligations.WrfreqResult : Prop :=
  ∀ (s : State) (ch v : Int), Live s → 0 ≤ ch → ch < 4 → 0 ≤ v →
    ∃ t, exec (.wrfreq ch v) s = .next t ∧
      (∀ c : Chan, (freq t c : Int) = if (c.val : Int) = ch then v else (freq s c : Int)) ∧
      t.results = s.results ++ [.nothing] ∧
      { t with frequencyDivider := s.frequencyDivider, results := s.results } = s

/-- 40_register_writes, WRCTRL. On a channel 0..3 and a value 0..255 a live engine completes: the named control byte holds the value,
all eight bits, the other three, every other field and the port are unchanged, and nothing is returned. -/
def Obligations.WrctrlResult : Prop :=
  ∀ (s : State) (ch v : Int), Live s → 0 ≤ ch → ch < 4 → 0 ≤ v → v < 256 →
    ∃ t, exec (.wrctrl ch v) s = .next t ∧
      (∀ c : Chan, ((ctrl t c).toNat : Int) = if (c.val : Int) = ch then v else ((ctrl s c).toNat : Int)) ∧
      t.results = s.results ++ [.nothing] ∧
      { t with controlByte := s.controlByte, results := s.results } = s

/-- R151 and R152. A channel outside 0..3 raises CHANNEL_RANGE, code 1, whatever the value; on a channel 0..3 a negative divider
value and a control value outside 0..255 raise VALUE_RANGE, code 2; no state element but `faulted` is written. -/
def Obligations.RegisterWriteFaults : Prop :=
  ∀ (s : State) (ch v : Int), Live s →
    (¬(0 ≤ ch ∧ ch < 4) →
      FaultsWith (exec (.wrfreq ch v) s) (.channelRange (.wrfreq ch v)) s ∧
      FaultsWith (exec (.wrctrl ch v) s) (.channelRange (.wrctrl ch v)) s) ∧
    (0 ≤ ch ∧ ch < 4 → v < 0 → FaultsWith (exec (.wrfreq ch v) s) (.valueRange (.wrfreq ch v)) s) ∧
    (0 ≤ ch ∧ ch < 4 → ¬(0 ≤ v ∧ v < 256) → FaultsWith (exec (.wrctrl ch v) s) (.valueRange (.wrctrl ch v)) s) ∧
    ∀ i : Instr, faultCode (.channelRange i) = 1 ∧ faultCode (.valueRange i) = 2

/-- 20_memory section 1. Register number 2 * channel is the channel's frequency register and 2 * channel + 1 its control register:
the two commands do what `RegWrite` of that register does, and return nothing. -/
def Obligations.RegisterNumbersNameRegisters : Prop :=
  ∀ (s : State) (r : Fin 8) (v : Nat), Live s → RegisterValue r v →
    ∃ t, exec (writeRegister r v) s = .next t ∧ t.results = s.results ++ [.nothing] ∧
      engine t = engine (regWrite r v s) ∧
      (r.val = registerNumber ⟨r.val / 2, by omega⟩ (r.val % 2 == 1)) ∧
      (r.val % 2 = 0 → freq t ⟨r.val / 2, by omega⟩ = v) ∧
      (r.val % 2 = 1 → (ctrl t ⟨r.val / 2, by omega⟩).toNat = v)

/-- 20_memory section 5 (b) and (c). Writes to different registers commute; of two writes to the same register the later one wins. -/
def Obligations.RegisterWritesCommute : Prop :=
  ∀ (s : State) (r r' : Fin 8) (v v' : Nat), Live s → RegisterValue r v → RegisterValue r' v' →
    (r ≠ r' → ∃ t,
      serveAll [.call (writeRegister r v), .call (writeRegister r' v')] s = .next t ∧
      serveAll [.call (writeRegister r' v'), .call (writeRegister r v)] s = .next t) ∧
    (r = r' → ∃ t u,
      serveAll [.call (writeRegister r v), .call (writeRegister r' v')] s = .next t ∧
      exec (writeRegister r' v') s = .next u ∧ engine t = engine u)

/-- 20_memory section 5 (a). The first STEP after a register write uses the new value for that channel: the new divider in its
increment, the new control byte for its mode and its volume. -/
def Obligations.WriteSeenByNextSample : Prop :=
  ∀ (s : State) (c : Chan), Live s →
    (∀ v : Nat, ∃ t, serveAll [.call (.wrfreq (c.val : Int) v), .call .step] s = .next t ∧
      phase t c = wrapPhase (phase s c + (s.clockRate : Rat) / (((v + 1) * s.sampleRate : Nat) : Rat))) ∧
    (∀ b : Byte, ∃ t l M, serveAll [.call (.wrctrl (c.val : Int) (b.toNat : Int)), .call .step] s = .next t ∧
      out t c = some l ∧ t.results = s.results ++ [.nothing, .mix M] ∧
      (isNoise b = false → l = toneLevel (phaseSum s c)) ∧
      (isNoise b = true → l = levelOfBit (noiseBit (noiseNext^[noiseRank s c] s.lfsrState))) ∧
      ∃ rest : Int, M = rest + l.toInt * (b.toNat % 16 : Nat) ∧ -45 ≤ rest ∧ rest ≤ 45)

/-! ### The noise source -/

/-- R100. NSTEP bit by bit, its frame, its corner cases, and the one state that steps to the seed, which is the state 131070 NSTEPs
after construction. -/
def Obligations.NstepBits : Prop :=
  (∀ l : Lfsr, noiseBit l = l.getLsbD 0 ∧ (noiseNext l).getLsbD 16 = l.getLsbD 0 ∧
    (noiseNext l).getLsbD 15 = l.getLsbD 16 ∧ (noiseNext l).getLsbD 14 = l.getLsbD 15 ∧
    (noiseNext l).getLsbD 13 = (l.getLsbD 14 ^^ l.getLsbD 0) ∧
    ∀ i, i ≤ 12 → (noiseNext l).getLsbD i = l.getLsbD (i + 1)) ∧
  (∀ s : State, (nstep s).1 = noiseBit s.lfsrState ∧ (nstep s).2.lfsrState = noiseNext s.lfsrState ∧
    { (nstep s).2 with lfsrState := s.lfsrState } = s) ∧
  (noiseBit 0#17 = false ∧ noiseNext 0#17 = 0#17) ∧
  (noiseBit 0x00001#17 = true ∧ noiseNext 0x00001#17 = 0x12000#17) ∧
  (noiseBit 0x00002#17 = false ∧ noiseNext 0x00002#17 = 0x00001#17) ∧
  (noiseBit 0x10000#17 = false ∧ noiseNext 0x10000#17 = 0x08000#17) ∧
  (noiseBit 0x1FFFF#17 = true ∧ noiseNext 0x1FFFF#17 = 0x1DFFF#17) ∧
  (∀ l : Lfsr, noiseNext l = 0x1FFFF#17 ↔ l = 0x1BFFF#17) ∧
  noiseNext^[131070] 0x1FFFF#17 = 0x1BFFF#17

/-- 41_noise_lfsr, properties (a) and (b). From the seed the register returns to the seed after exactly 131071 NSTEPs and not before;
every nonzero value occurs once in a period; in one period the returned bit is 1 exactly 65536 times and 0 exactly 65535 times. -/
def Obligations.LfsrMaximalPeriod : Prop :=
  noiseNext^[131071] 0x1FFFF#17 = 0x1FFFF#17 ∧
  (∀ k, 0 < k → k < 131071 → noiseNext^[k] 0x1FFFF#17 ≠ 0x1FFFF#17) ∧
  (∀ l : Lfsr, l ≠ 0#17 → ∃ k, (k < 131071 ∧ noiseNext^[k] 0x1FFFF#17 = l) ∧
    ∀ j, j < 131071 → noiseNext^[j] 0x1FFFF#17 = l → j = k) ∧
  ((List.range 131071).countP fun k => noiseBit (noiseNext^[k] 0x1FFFF#17)) = 65536 ∧
  ((List.range 131071).countP fun k => !noiseBit (noiseNext^[k] 0x1FFFF#17)) = 65535

/-- R103 and R113. With j channels in noise mode, n STEPs advance the register by exactly n * j; in each STEP the noise-mode channels
take successive bits in ascending channel order (the ranks of the noise-mode channels count up from 0 to j - 1), whatever the volume;
the bit alone sets the level, and the phase of a noise-mode channel is updated as in tone mode. With j = 0 the register is unchanged. -/
def Obligations.SharedNoiseSequence : Prop :=
  ∀ (s : State) (n : Nat), Live s →
    (∃ t, serveAll (stepCommands n) s = .next t ∧
      t.lfsrState = noiseNext^[n * noiseCount s] s.lfsrState ∧ (noiseCount s = 0 → t.lfsrState = s.lfsrState)) ∧
    (∃ t u, serveAll (stepCommands n) s = .next t ∧ serveAll (stepCommands (n + 1)) s = .next u ∧
      ∀ c : Chan, isNoise (ctrl s c) = true →
        out u c = some (levelOfBit (noiseBit (noiseNext^[n * noiseCount s + noiseRank s c] s.lfsrState))) ∧
        phase u c = if 1 ≤ phase t c + phaseIncrement s c then phase t c + phaseIncrement s c - 1
          else phase t c + phaseIncrement s c) ∧
    (∀ c : Chan, isNoise (ctrl s c) = true →
      noiseRank s c < noiseCount s ∧ ∀ d : Chan, d < c → isNoise (ctrl s d) = true → noiseRank s d < noiseRank s c)

/-- R169. From `lfsrState` 0 every STEP leaves it 0 and every noise-mode channel outputs -1 for ever, with no reseeding; no instance
comes to such a state. -/
def Obligations.ZeroLfsrIsAbsorbing : Prop :=
  (∀ (s : State) (n : Nat), Live s → s.lfsrState = 0#17 →
    ∃ t, serveAll (stepCommands (n + 1)) s = .next t ∧ t.lfsrState = 0#17 ∧
      ∀ c : Chan, isNoise (ctrl s c) = true → out t c = some .minus) ∧
  noiseBit 0#17 = false ∧ noiseNext 0#17 = 0#17 ∧
  ∀ s : State, Reachable s → s.lfsrState ≠ 0#17

/-- 43 and 42, property (3) of the source: with one channel in noise mode and the other three in tone mode at volume 0, the k-th sample
of a RENDER is plus or minus the channel's volume, quantised, as the k-th bit of the noise sequence is 1 or 0. -/
def Obligations.NoiseChannelFollowsLfsr : Prop :=
  ∀ (s : State) (c : Chan) (n : Nat), Live s → Fits n s → isNoise (ctrl s c) = true →
    (∀ d : Chan, d ≠ c → isNoise (ctrl s d) = false ∧ volume (ctrl s d) = 0) →
    ∃ t buf, exec (.render n) s = .next t ∧ t.results = s.results ++ [.buffer buf] ∧ buf.length = n ∧
      ∀ (k : Nat) (x : Sample), buf[k]? = some x →
        x.toInt = quant ((if noiseBit (noiseNext^[k] s.lfsrState) then 1 else -1) * (volume (ctrl s c) : Int))

/-! ### The sample step -/

/-- 42_sample_step, STEP. A live engine completes: every phase is wrapped once at most, every output holds the level of this sample,
the register advances once per noise-mode channel, the host receives the sum of level times volume, and every other field and the
port are unchanged. The loop over the channels equals this closed form. -/
def Obligations.StepResult : Prop :=
  ∀ s : State, Live s → ∃ t, exec .step s = .next t ∧
    (∀ c : Chan, phase t c = wrapPhase (phaseSum s c)) ∧
    (∀ c : Chan, out t c = some (stepLevel s c)) ∧
    t.lfsrState = noiseNext^[noiseCount s] s.lfsrState ∧
    t.results = s.results ++ [.mix (stepMix s)] ∧
    { t with channelPhase := s.channelPhase, channelOutput := s.channelOutput, lfsrState := s.lfsrState,
             results := s.results } = s

/-- R111 and R112. The divisor is the register value plus 1, never less than 1; the increment is (clockRate / divisor) / sampleRate,
exact; the sum wraps when it is at least 1, by one subtraction of 1, a sum of exactly 1 to 0; the tone level is +1 on a wrap and -1
otherwise. The period in samples is the reciprocal of the increment. -/
def Obligations.PhaseUpdate : Prop :=
  ∀ s : State, Live s → ∃ t, exec .step s = .next t ∧ ∀ c : Chan,
    divisor s c = freq s c + 1 ∧ 1 ≤ divisor s c ∧
    (let inc : Rat := ((s.clockRate : Rat) / (divisor s c : Rat)) / (s.sampleRate : Rat)
     let p : Rat := phase s c + inc
     phase t c = (if 1 ≤ p then p - 1 else p) ∧ (p = 1 → phase t c = 0) ∧
     (ToneMode s c → out t c = some (if 1 ≤ p then .plus else .minus)) ∧
     (s.sampleRate : Rat) / ((s.clockRate : Rat) / (divisor s c : Rat)) = inc⁻¹)

/-- R33, R115, R116 and R117. The mix numerator of a STEP is the sum of output times volume (bits 3:0 of the control byte); the
source's form (the sum of output times volume / 15, divided by 4) is M / 60; each channel contributes at most 1 in size, |M| is at
most 60, the mix is in [-1, 1]; M is 0 when all volumes are 0 and has the parity of the sum of the volumes; the mix is +1 or -1 only
when all volumes are 15 and all outputs are equal. -/
def Obligations.MixNumeratorLaws : Prop :=
  ∀ s : State, Live s → ∃ (t : State) (l : Chan → Level) (M : Int), exec .step s = .next t ∧
    t.results = s.results ++ [.mix M] ∧ (∀ c : Chan, out t c = some (l c)) ∧
    (∀ c : Chan, volume (ctrl s c) = (ctrl s c).toNat % 16) ∧
    M = ∑ c : Chan, (l c).toInt * (volume (ctrl s c) : Int) ∧
    mixValue M = (∑ c : Chan, ((l c).toInt : Rat) * ((volume (ctrl s c) : Rat) / 15)) / 4 ∧
    (∀ c : Chan, |((l c).toInt : Rat) * ((volume (ctrl s c) : Rat) / 15)| ≤ 1) ∧
    |M| ≤ 60 ∧ -1 ≤ mixValue M ∧ mixValue M ≤ 1 ∧
    ((∀ c : Chan, volume (ctrl s c) = 0) → M = 0) ∧
    M % 2 = (∑ c : Chan, (volume (ctrl s c) : Int)) % 2 ∧
    (mixValue M = 1 ∨ mixValue M = -1 →
      (∀ c : Chan, volume (ctrl s c) = 15) ∧ ∀ c d : Chan, l c = l d)

/-- 43_render_quantize on where QUANT is applied: the host-issued STEP returns the unquantised mix and no buffer, RENDER 1 returns that
mix quantised. 42_sample_step, "A STEP issued by the host and a STEP run inside RENDER change the state identically": both leave the
same engine state; the spec marks that sentence as its own inference, so the basis is 'derived'. The mix is held as its numerator M
(log entry 22). -/
def Obligations.StepAloneAndInRender : Prop :=
  ∀ s : State, Live s → Fits 1 s →
    ∃ t u M x, exec .step s = .next t ∧ exec (.render 1) s = .next u ∧ engine t = engine u ∧
      t.results = s.results ++ [.mix M] ∧ u.results = s.results ++ [.buffer [x]] ∧ x.toInt = quant M

/-- The literal words "every phase[c] has changed" of 42_sample_step, state after a STEP. Expected to FAIL: with an increment of
exactly 1 every STEP wraps and the phase never changes, as the corner cases of the same file say. -/
def Obligations.EveryStepChangesEveryPhase : Prop :=
  ∀ s t : State, s.Inv → exec .step s = .next t → ∀ c : Chan, phase t c ≠ phase s c

/-- What does hold: a STEP changes the phase of a channel unless its increment is exactly 1 and the sum wraps. It rests on log entry 24
(DEDUCED): the sentence "Every `phase[c]` has changed" of 42_sample_step is set aside for two others of the same file, "`inc` exactly 1
with phase in [0,1): every STEP wraps, the phase never changes" and "If `inc` = 1 exactly and the phase is 1 or more, it stays there
for ever". -/
def Obligations.StepChangesPhaseUnlessIncrementOne : Prop :=
  ∀ s t : State, s.Inv → exec .step s = .next t → ∀ c : Chan,
    (phase t c = phase s c ↔ phaseIncrement s c = 1 ∧ 1 ≤ phaseSum s c)

/-- 42_sample_step, silence. The volumes never affect the generator: two states that differ only in control bytes of the same modes
have, after any number of STEPs, the same phases, the same outputs and the same noise register; and a channel of volume 0 adds 0. -/
def Obligations.VolumeNeverAffectsGenerator : Prop :=
  ∀ (s s' : State) (n : Nat), Live s → { s with controlByte := s'.controlByte } = s' →
    (∀ c : Chan, isNoise (ctrl s c) = isNoise (ctrl s' c)) →
    (∃ t t', serveAll (stepCommands n) s = .next t ∧ serveAll (stepCommands n) s' = .next t' ∧
      t.lfsrState = t'.lfsrState ∧ ∀ c : Chan, phase t c = phase t' c ∧ out t c = out t' c) ∧
    ∀ c : Chan, volume (ctrl s c) = 0 → stepTerm s c = 0

/-- R183. Straight after CONSTRUCT a STEP returns 0 and a RENDER of n samples returns n samples of 0, while the four phases run away:
with clockRate above sampleRate each is n * (clockRate / sampleRate - 1). -/
def Obligations.FreshEngineIsSilent : Prop :=
  ∀ (cr sr : Nat) (cap : Option Nat) (n : Nat) (s : State), construct (some (cr : Int)) (some (sr : Int)) cap = .next s →
    Fits n s →
    (∃ t, exec .step s = .next t ∧ t.results = [.mix 0]) ∧
    ∃ t, exec (.render n) s = .next t ∧ t.results = [.buffer (List.replicate n 0#16)] ∧
      (sr < cr → ∀ c : Chan, phase t c = n * ((cr : Rat) / sr - 1))

/-! ### The tone waveform -/

/-- 42_sample_step, the tone waveform when the increment is at most 1: after k STEPs the phase is the fractional part of p0 + k * inc,
and the STEP after them outputs +1 exactly when the floor of p0 + k * inc goes up. -/
def Obligations.ToneClosedForm : Prop :=
  ∀ (s : State) (c : Chan) (k : Nat), Live s → ToneMode s c → InRange s c →
    ∃ t u, serveAll (stepCommands k) s = .next t ∧ serveAll (stepCommands (k + 1)) s = .next u ∧
      phase t c = (phase s c + k * phaseIncrement s c) - ⌊phase s c + k * phaseIncrement s c⌋ ∧
      out u c = some (if ⌊phase s c + k * phaseIncrement s c⌋ < ⌊phase s c + (k + 1) * phaseIncrement s c⌋
        then .plus else .minus)

/-- The same section, and property 1 of the source: two successive wraps are floor(1 / inc) or ceil(1 / inc) samples apart. -/
def Obligations.WrapSpacing : Prop :=
  ∀ (s : State) (c : Chan) (m : Nat), Live s → ToneMode s c → InRange s c → 0 < phaseIncrement s c → 1 ≤ m →
    (∃ t, serveAll (stepCommands 1) s = .next t ∧ out t c = some .plus) →
    (∀ j, 2 ≤ j → j ≤ m → ∃ t, serveAll (stepCommands j) s = .next t ∧ out t c = some .minus) →
    (∃ t, serveAll (stepCommands (m + 1)) s = .next t ∧ out t c = some .plus) →
    (m : Int) = ⌊1 / phaseIncrement s c⌋ ∨ (m : Int) = ⌈1 / phaseIncrement s c⌉

/-- 42_sample_step, exact periodicity. With the increment at most 1 and the phase in [0,1), the phase after k STEPs is the starting one
exactly when k is a multiple of the increment's denominator b in lowest terms; in b STEPs the channel wraps exactly as many times as
the numerator. -/
def Obligations.ToneExactPeriod : Prop :=
  ∀ (s : State) (c : Chan), Live s → ToneMode s c → InRange s c →
    (∀ k : Nat, ∃ t, serveAll (stepCommands k) s = .next t ∧
      (phase t c = phase s c ↔ (phaseIncrement s c).den ∣ k)) ∧
    (((List.range (phaseIncrement s c).den).countP fun k => wraps (phaseSum (sampleSteps k s) c) : Nat) : Int) =
      (phaseIncrement s c).num

/-- R120. With an increment above 1 and a phase that is not negative every STEP wraps, the tone output is +1 and after n STEPs the
phase is p0 + n * (inc - 1); with the default parameters this is so for the divider values 0 to 39 and no others, and for 0 the
phase grows by 17459/441 a STEP. While the sum is at least 1 a STEP with any increment lowers the phase by 1 - inc and the tone output
is +1; with an increment of exactly 1 and a phase of 1 or more that lasts for ever. -/
def Obligations.RunawayTone : Prop :=
  (∀ (s : State) (c : Chan) (n : Nat), Live s → 0 ≤ phase s c → 1 < phaseIncrement s c →
    ∃ t u, serveAll (stepCommands n) s = .next t ∧ serveAll (stepCommands (n + 1)) s = .next u ∧
      phase t c = phase s c + n * (phaseIncrement s c - 1) ∧ (ToneMode s c → out u c = some .plus)) ∧
  (∀ (s : State) (c : Chan), s.clockRate = 1790000 → s.sampleRate = 44100 →
    (1 < phaseIncrement s c ↔ freq s c ≤ 39) ∧ (freq s c = 0 → phaseIncrement s c - 1 = 17459 / 441)) ∧
  (∀ (s : State) (c : Chan), Live s → 1 ≤ phaseSum s c →
    ∃ t, exec .step s = .next t ∧ phase t c = phase s c - (1 - phaseIncrement s c) ∧
      (ToneMode s c → out t c = some .plus)) ∧
  (∀ (s : State) (c : Chan) (n : Nat), Live s → phaseIncrement s c = 1 → 1 ≤ phase s c →
    ∃ t u, serveAll (stepCommands n) s = .next t ∧ serveAll (stepCommands (n + 1)) s = .next u ∧
      phase t c = phase s c ∧ (ToneMode s c → out u c = some .plus))

/-- 70_reset_and_hazards, phase runaway: the recovery time. With phase P and an increment below 1, the tone output is +1 for k - 1
samples and the first -1 comes at the k-th, k = floor((P + inc - 1) / (1 - inc)) + 2, after which the phase is in [0,1). -/
def Obligations.RunawayRecoveryTime : Prop :=
  ∀ (s : State) (c : Chan) (k : Nat), Live s → ToneMode s c → 0 ≤ phase s c → phaseIncrement s c < 1 →
    (k : Int) = ⌊(phase s c + phaseIncrement s c - 1) / (1 - phaseIncrement s c)⌋ + 2 →
    1 ≤ k ∧
    (∀ j, 1 ≤ j → j < k → ∃ t, serveAll (stepCommands j) s = .next t ∧ out t c = some .plus) ∧
    ∃ t, serveAll (stepCommands k) s = .next t ∧ out t c = some .minus ∧ 0 ≤ phase t c ∧ phase t c < 1

/-- R32. No phase is negative in a reachable state; a STEP keeps a phase in [0,1) if the increment is at most 1, that is if divider + 1
is at least clockRate / sampleRate; above 1 every STEP adds inc - 1, a positive amount, and the tone output is +1; with the default
parameters clockRate / sampleRate is 17900/441 and the condition is a divider of at least 40, which the reset value does not meet. -/
def Obligations.PhaseRange : Prop :=
  (∀ s : State, Reachable s → ∀ c : Chan, 0 ≤ phase s c) ∧
  (∀ (s : State) (c : Chan), Live s → InRange s c → ∃ t, exec .step s = .next t ∧ InRange t c) ∧
  (∀ (s : State) (c : Chan), 1 ≤ s.sampleRate →
    (phaseIncrement s c ≤ 1 ↔ (s.clockRate : Rat) / s.sampleRate ≤ (freq s c : Rat) + 1)) ∧
  (∀ (s : State) (c : Chan), Live s → 0 ≤ phase s c → 1 < phaseIncrement s c →
    0 < phaseIncrement s c - 1 ∧ ∃ t, exec .step s = .next t ∧
      phase t c = phase s c + (phaseIncrement s c - 1) ∧ (ToneMode s c → out t c = some .plus)) ∧
  (∀ (s : State) (c : Chan), s.clockRate = 1790000 → s.sampleRate = 44100 →
    (s.clockRate : Rat) / s.sampleRate = 17900 / 441 ∧ (phaseIncrement s c ≤ 1 ↔ 40 ≤ freq s c)) ∧
  ∀ c : Chan, ¬ phaseIncrement State.reset c ≤ 1

/-! ### Buffer rendering -/

/-- R131, with 20_memory on the order of the samples. A live engine completes RENDER n within capacity after exactly n STEPs, whatever the registers: the buffer has
exactly n samples, sample i being the quantised mix of STEP number i + 1; the engine's state is that of n STEPs; the port is
unchanged. RENDER 0 returns the empty buffer and changes nothing. -/
def Obligations.RenderResult : Prop :=
  ∀ (s : State) (n : Nat), Live s → Fits n s →
    ∃ t buf, exec (.render n) s = .next t ∧ t.results = s.results ++ [.buffer buf] ∧ buf.length = n ∧
      t.port = s.port ∧ t.draws = s.draws ∧
      (∃ u, serveAll (stepCommands n) s = .next u ∧ engine t = engine u) ∧
      (∀ (i : Nat) (x : Sample), buf[i]? = some x → ∃ v M, serveAll (stepCommands (i + 1)) s = .next v ∧
        v.results.getLast? = some (.mix M) ∧ x.toInt = quant M) ∧
      (n = 0 → { t with results := s.results } = s)

/-- R67. RENDERs one after the other return buffers whose concatenation is the one buffer of the whole count, and leave the same
engine state; in particular RENDER n1 then RENDER n2. -/
def Obligations.RenderSplit : Prop :=
  ∀ (s : State) (counts : List Nat), Live s → Fits counts.sum s →
    ∃ (t u : State) (bufs : List (List Sample)),
      serveAll (counts.map fun n : Nat => .call (.render (n : Int))) s = .next t ∧ exec (.render counts.sum) s = .next u ∧
      bufs.map List.length = counts ∧
      t.results = s.results ++ bufs.map Result.buffer ∧ u.results = s.results ++ [.buffer bufs.flatten] ∧
      engine t = engine u

/-- R140 and R155. RENDER n with n above `BUF_CAPACITY` raises RESOURCE_EXHAUSTED, code 5, and returns no buffer; some number of STEPs
from 0 to n has been applied and the fault is terminal. With `BUF_CAPACITY` unbounded it never occurs. The number of STEPs applied is
a free value (log entry 7); the statement holds whatever it is. -/
def Obligations.RenderExhausted : Prop :=
  (∀ (s : State) (n cap : Nat), Live s → s.bufCapacity = some cap → cap < n →
    ∃ (t u : State) (k : Nat), exec (.render n) s = .next t ∧ t.faulted = true ∧
      t.results = s.results ++ [.fault (.resourceExhausted n)] ∧ k ≤ n ∧
      serveAll (stepCommands k) s = .next u ∧ { engine t with faulted := false } = engine u ∧
      ∀ i : Instr, exec i t = .fault .engineFaulted) ∧
  (∀ n : Nat, faultCode (.resourceExhausted n) = 5) ∧
  (∀ (s t : State) (cmd : Command), s.bufCapacity = none → serve cmd s = .next t →
    ∀ n : Nat, t.results ≠ s.results ++ [.fault (.resourceExhausted n)])

/-- 43_render_quantize and 60_exceptions on durations, and 43_render_quantize on the RENDER of a negative count. RENDERSEC d with d >= 0 returns exactly
floor(sampleRate * d) samples and does what RENDER of that count does; d = 0 gives the empty buffer; the fraction of a sample is not
remembered (two RENDERSEC 0.00001 at 44,100 Hz render 0 samples each); d < 0 raises NEGATIVE_DURATION, code 3, and nothing runs; the
count of a command word is never negative. Serving RENDERSEC as one command is the model's choice (log entry 19; the spec has the host
expand it), so the basis is 'derived'. -/
def Obligations.DurationToCount : Prop :=
  (∀ (s : State) (d : Rat), Live s → 0 ≤ d → Fits ⌊(s.sampleRate : Rat) * d⌋ s →
    ∃ t buf, serve (.renderSec d) s = .next t ∧ exec (.render ⌊(s.sampleRate : Rat) * d⌋) s = .next t ∧
      t.results = s.results ++ [.buffer buf] ∧ (buf.length : Int) = ⌊(s.sampleRate : Rat) * d⌋ ∧ (d = 0 → buf = [])) ∧
  (∀ s : State, Live s → s.sampleRate = 44100 →
    ∃ t, serveAll [.renderSec (1 / 100000), .renderSec (1 / 100000)] s = .next t ∧
      t.results = s.results ++ [.buffer [], .buffer []]) ∧
  (∀ (s : State) (d : Rat), Live s → d < 0 →
    FaultsWith (serve (.renderSec d) s) (.negativeDuration (.renderSec d)) s) ∧
  (∀ (s : State) (n : Int), Live s → n < 0 →
    FaultsWith (exec (.render n) s) (.negativeDuration (.call (.render n))) s) ∧
  (∀ cmd : Command, faultCode (.negativeDuration cmd) = 3) ∧
  ∀ (w : Word) (n : Int), decode w = .ok (.render n) → 0 ≤ n

/-- 30_encoding, section 5: RENDERSEC's expansion: none for d < 0; else RENDERs that all have command words, whose counts sum to floor(sampleRate * d),
a single RENDER if a word carries the count; run one after the other they return the one buffer in pieces and leave the same engine
state. d with 0 < d < 1 / sampleRate gives n = 0; at 44,100 Hz 0.05 is RENDER 2205 and 0.01 is RENDER 441. That
the expansion agrees with RENDERSEC served as one command rests on that form, the model's choice (log entry 19), and on 20_memory's
inference on split renders, so the basis is 'derived'; which counts the pieces have is the model's choice too (log entry 25), and no
clause here rests on it. -/
def Obligations.RenderSecExpansion : Prop :=
  (∀ (rate : Nat) (d : Rat), d < 0 → expandRenderSec rate d = none) ∧
  (∀ (s : State) (d : Rat), Live s → s.bufCapacity = none → 0 ≤ d →
    ∃ (cmds : List Instr) (counts : List Nat) (t u : State) (bufs : List (List Sample)),
      expandRenderSec s.sampleRate d = some cmds ∧ cmds = counts.map (fun n : Nat => .render (n : Int)) ∧
      (∀ i ∈ cmds, i.wellFormed = true) ∧ ((counts.sum : Nat) : Int) = ⌊(s.sampleRate : Rat) * d⌋ ∧
      (⌊(s.sampleRate : Rat) * d⌋ ≤ 16777215 → cmds = [.render ⌊(s.sampleRate : Rat) * d⌋]) ∧
      serveAll (cmds.map .call) s = .next t ∧ serve (.renderSec d) s = .next u ∧
      t.results = s.results ++ bufs.map Result.buffer ∧ u.results = s.results ++ [.buffer bufs.flatten] ∧
      engine t = engine u) ∧
  (∀ (rate : Nat) (d : Rat), 1 ≤ rate → 0 ≤ d → d < 1 / rate → expandRenderSec rate d = some [.render 0]) ∧
  expandRenderSec 44100 (5 / 100) = some [.render 2205] ∧ expandRenderSec 44100 (1 / 100) = some [.render 441]

/-! ### The quantiser and the bytes of a buffer -/

/-- R134. The integer-only form, for every integer; odd, strictly increasing, within 16384 for |M| <= 60, and the four values named. -/
def Obligations.QuantIntegerForm : Prop :=
  (∀ M : Int, quant M = M.sign * (((32767 * M.natAbs + 60) / 120 : Nat) : Int) ∧ quant (-M) = -quant M) ∧
  (∀ M N : Int, M < N → quant M < quant N) ∧
  (∀ M : Int, -60 ≤ M → M ≤ 60 → |quant M| ≤ 16384) ∧
  quant 0 = 0 ∧ quant 15 = 4096 ∧ quant 30 = 8192 ∧ quant 45 = 12288 ∧ quant 60 = 16384

/-- 43_render_quantize, rounding. QUANT(M) is a nearest integer to 32767 * M / 120; the value is half way between two integers exactly
when M is 60 modulo 120, and then QUANT(M) is the one farther from zero. -/
def Obligations.QuantIsNearest : Prop :=
  ∀ M : Int, |32767 * (M : Rat) / 120 - quant M| ≤ 1 / 2 ∧
    (|32767 * (M : Rat) / 120 - quant M| = 1 / 2 ↔ M % 120 = 60) ∧
    (M % 120 = 60 → |32767 * (M : Rat) / 120| < |(quant M : Rat)|)

/-- 20_memory, section 2. In the byte form of a buffer sample i is byte 2i (bits 7..0) and byte 2i + 1 (bits 15..8), 2N bytes in all; a signed
16-bit value is stored modulo 65536 and read back by sign extension; in a buffer that RENDER returns bits 15 and 14 of a pattern are
equal except for 16384. The two examples. That a signed sample is two's complement is PRESUMED (log entry 20): the spec marks it "from
general knowledge, not in source". -/
def Obligations.BufferBytes : Prop :=
  (∀ buf : List Sample, (pcmBytes buf).length = 2 * buf.length ∧
    ∀ (i : Nat) (x : Sample), buf[i]? = some x →
      (pcmBytes buf)[2 * i]? = some (BitVec.ofNat 8 (x.toNat % 256)) ∧
      (pcmBytes buf)[2 * i + 1]? = some (BitVec.ofNat 8 (x.toNat / 256))) ∧
  (∀ v : Int, -32768 ≤ v → v ≤ 32767 →
    ((BitVec.ofInt 16 v).toNat : Int) = v % 65536 ∧ (BitVec.ofInt 16 v).toInt = v) ∧
  (∀ (s t : State) (n : Int) (buf : List Sample), exec (.render n) s = .next t → t.results = s.results ++ [.buffer buf] →
    ∀ x ∈ buf, -16384 ≤ x.toInt ∧ x.toInt ≤ 16384 ∧ (x.toInt ≠ 16384 → x.getLsbD 15 = x.getLsbD 14)) ∧
  pcmBytes [BitVec.ofInt 16 4096] = [0x00#8, 0x10#8] ∧ pcmBytes [BitVec.ofInt 16 (-4096)] = [0x00#8, 0xF0#8]

/-! ### Faults -/

/-- R158. While `faulted` is true the engine executes nothing: no command, legal or not, and no step leads anywhere, so no state
element changes and no result is returned; and the condition is never cleared: no step and no command leads out of a faulted state. -/
def Obligations.FaultedEngineStops : Prop :=
  ∀ s : State, s.faulted = true →
    (∀ cmd : Command, serve cmd s = .fault .engineFaulted) ∧ (∀ i : Instr, exec i s = .fault .engineFaulted) ∧
    step s = .fault .engineFaulted ∧
    (∀ (cmds : List Command) (t : State), serveAll cmds s = .next t → cmds = [] ∧ t = s)

/-- 60_exceptions, section 2. When a command faults, `faulted` is true in the next state and the host receives the fault in place of a result; for codes 1
to 4 no other state element is written; for code 5 the rates, the registers, the capacity and the port are still as they were:
60_exceptions calls the state elements unspecified there, 43_render_quantize narrows that to "any number of STEPs from 0 to n", and the
model takes one such number as a free value (log entry 7), so the basis is 'derived'. No other command sets `faulted`, and no fault transfers control: the rest of the port, which is the
model's own (log entry 1), waits as it was. -/
def Obligations.FaultEntry : Prop :=
  ∀ (s t : State) (cmd : Command), serve cmd s = .next t →
    (t.faulted = true ↔ ∃ r, t.results = s.results ++ [.fault r]) ∧
    t.port = s.port ∧
    ∀ r, t.results = s.results ++ [.fault r] →
      (1 ≤ faultCode r ∧ faultCode r ≤ 5) ∧
      (faultCode r ≤ 4 → { t with faulted := s.faulted, results := s.results } = s) ∧
      (t.clockRate = s.clockRate ∧ t.sampleRate = s.sampleRate ∧ t.frequencyDivider = s.frequencyDivider ∧
        t.controlByte = s.controlByte ∧ t.bufCapacity = s.bufCapacity)

/-- R162. No command with operands in range ever faults, in any order and number, whatever the dividers, control bytes and phases: in a
live engine a list of such commands (RENDERs within capacity) runs to its end and the engine is live after it, one result each. -/
def Obligations.LegalCommandsNeverFault : Prop :=
  ∀ (s : State) (is : List Instr), Live s → (∀ i ∈ is, Executable i s) →
    ∃ t rs, serveAll (is.map .call) s = .next t ∧ Live t ∧ t.results = s.results ++ rs ∧ rs.length = is.length ∧
      ∀ r ∈ rs, isFaultResult r = false

/-! ### Whole-machine rules -/

/-- 10_state, who reads and writes what. No command changes the parameters or the capacity; a divider is changed only by a WRFREQ that
names its channel, a control byte only by a WRCTRL that names its channel; the noise register, the phases and the outputs only by STEP
and RENDER, the noise register only if some channel is in noise mode. -/
def Obligations.WhoWritesWhat : Prop :=
  ∀ (i : Instr) (s t : State), exec i s = .next t →
    (t.clockRate = s.clockRate ∧ t.sampleRate = s.sampleRate ∧ t.bufCapacity = s.bufCapacity ∧ t.port = s.port) ∧
    (∀ c : Chan, freq t c ≠ freq s c → ∃ v, i = .wrfreq (c.val : Int) v) ∧
    (∀ c : Chan, ctrl t c ≠ ctrl s c → ∃ v, i = .wrctrl (c.val : Int) v) ∧
    (t.lfsrState ≠ s.lfsrState ∨ t.channelPhase ≠ s.channelPhase ∨ t.channelOutput ≠ s.channelOutput →
      i = .step ∨ ∃ n, i = .render n) ∧
    (t.lfsrState ≠ s.lfsrState → noiseCount s ≠ 0)

/-- 20_memory on the output buffer, 43_render_quantize on the returned buffer: what the host has received never changes; a step adds at
most one result. The list of results is the model's (log entry 2). -/
def Obligations.ReturnedResultsNeverChange : Prop :=
  ∀ s t : State, step s = .next t →
    ∃ rs, t.results = s.results ++ rs ∧ rs.length = s.port.length - t.port.length ∧ rs.length ≤ 1

/-- 10_state on bit 4 and the NOISE field of a control byte, and on `channelOutput`. States that differ only in control bits no rule
reads (bit 4, the choice among the nonzero NOISE values) and in the last outputs cannot be told apart by any commands: the runs end
alike and return the same results. -/
def Obligations.UnreadBitsUnobservable : Prop :=
  ∀ (cmds : List Command) (s s' : State), SameSound s s' →
    (∀ t, serveAll cmds s = .next t → ∃ t', serveAll cmds s' = .next t' ∧ SameSound t t' ∧ t.results = t'.results) ∧
    (∀ r, serveAll cmds s = .fault r → serveAll cmds s' = .fault r)

/-- 30_encoding and 20_memory on sequencing: a step takes the oldest command on the port; a word that decodes to `i` runs exactly `i`, on
the state with that command taken; an abstract command runs itself; with no command waiting a live engine idles. The host's
`withFetchWord` places a word that the next step runs. The port, the idle step and the placing of a word are the model's (log
entries 1, 3 and 4). -/
def Obligations.StepRunsDecodedInstruction : Prop :=
  (∀ (s : State) (w : Word) (rest : List Command) (i : Instr), s.port = .word w :: rest → decode w = .ok i →
    step s = exec i { s with port := rest }) ∧
  (∀ (s : State) (i : Instr) (rest : List Command), s.port = .call i :: rest → step s = exec i { s with port := rest }) ∧
  (∀ (s : State) (d : Rat) (rest : List Command), s.port = .renderSec d :: rest →
    step s = execRenderSec d { s with port := rest }) ∧
  (∀ s : State, Live s → s.port = [] → step s = .next s) ∧
  (∀ (s : State) (w : Word) (i : Instr), decode w = .ok i → step (s.withFetchWord 32 w.toNat) = exec i s)

/-- 20_memory section 3, order of commands: the engine's state after the commands on the port is the result of applying them in the
order issued, and commands issued later wait behind them. The port is the model's (log entry 1). -/
def Obligations.CommandsRunInOrder : Prop :=
  ∀ (s t : State) (cmds later : List Command), s.port = cmds ++ later →
    serveAll cmds { s with port := later } = .next t →
    Host.Core.run Sys2Proof.core cmds.length s = .next t ∧ t.port = later
end

