-- ==== Sys2Proof/Laws/State.lean ====
section
/-!
SUPPORT. Laws/State.lean: what each update of Machine/Ops.lean leaves in each field of State and under each accessor, one lemma per
update and field.
-/

namespace Sys2Proof.Machine

/-! ### writeFreq -/

@[simp] theorem writeFreq_clockRate (c : Chan) (v : Nat) (s : State) : (writeFreq c v s).clockRate = s.clockRate := rfl
@[simp] theorem writeFreq_sampleRate (c : Chan) (v : Nat) (s : State) : (writeFreq c v s).sampleRate = s.sampleRate := rfl
@[simp] theorem writeFreq_frequencyDivider (c : Chan) (v : Nat) (s : State) :
    (writeFreq c v s).frequencyDivider = s.frequencyDivider.set c v := rfl
@[simp] theorem writeFreq_controlByte (c : Chan) (v : Nat) (s : State) : (writeFreq c v s).controlByte = s.controlByte := rfl
@[simp] theorem writeFreq_lfsrState (c : Chan) (v : Nat) (s : State) : (writeFreq c v s).lfsrState = s.lfsrState := rfl
@[simp] theorem writeFreq_channelPhase (c : Chan) (v : Nat) (s : State) : (writeFreq c v s).channelPhase = s.channelPhase := rfl
@[simp] theorem writeFreq_channelOutput (c : Chan) (v : Nat) (s : State) :
    (writeFreq c v s).channelOutput = s.channelOutput := rfl
@[simp] theorem writeFreq_faulted (c : Chan) (v : Nat) (s : State) : (writeFreq c v s).faulted = s.faulted := rfl
@[simp] theorem writeFreq_bufCapacity (c : Chan) (v : Nat) (s : State) : (writeFreq c v s).bufCapacity = s.bufCapacity := rfl
@[simp] theorem writeFreq_port (c : Chan) (v : Nat) (s : State) : (writeFreq c v s).port = s.port := rfl
@[simp] theorem writeFreq_results (c : Chan) (v : Nat) (s : State) : (writeFreq c v s).results = s.results := rfl
@[simp] theorem writeFreq_draws (c : Chan) (v : Nat) (s : State) : (writeFreq c v s).draws = s.draws := rfl
@[simp] theorem freq_writeFreq (c : Chan) (v : Nat) (s : State) (d : Chan) :
    freq (writeFreq c v s) d = if c = d then v else freq s d := by
  simp [freq, writeFreq, Vector.getElem_set, Fin.ext_iff]
@[simp] theorem ctrl_writeFreq (c : Chan) (v : Nat) (s : State) (d : Chan) : ctrl (writeFreq c v s) d = ctrl s d := rfl
@[simp] theorem phase_writeFreq (c : Chan) (v : Nat) (s : State) (d : Chan) : phase (writeFreq c v s) d = phase s d := rfl
@[simp] theorem out_writeFreq (c : Chan) (v : Nat) (s : State) (d : Chan) : out (writeFreq c v s) d = out s d := rfl

/-! ### writeCtrl -/

@[simp] theorem writeCtrl_clockRate (c : Chan) (v : Byte) (s : State) : (writeCtrl c v s).clockRate = s.clockRate := rfl
@[simp] theorem writeCtrl_sampleRate (c : Chan) (v : Byte) (s : State) : (writeCtrl c v s).sampleRate = s.sampleRate := rfl
@[simp] theorem writeCtrl_frequencyDivider (c : Chan) (v : Byte) (s : State) :
    (writeCtrl c v s).frequencyDivider = s.frequencyDivider := rfl
@[simp] theorem writeCtrl_controlByte (c : Chan) (v : Byte) (s : State) :
    (writeCtrl c v s).controlByte = s.controlByte.set c v := rfl
@[simp] theorem writeCtrl_lfsrState (c : Chan) (v : Byte) (s : State) : (writeCtrl c v s).lfsrState = s.lfsrState := rfl
@[simp] theorem writeCtrl_channelPhase (c : Chan) (v : Byte) (s : State) : (writeCtrl c v s).channelPhase = s.channelPhase := rfl
@[simp] theorem writeCtrl_channelOutput (c : Chan) (v : Byte) (s : State) :
    (writeCtrl c v s).channelOutput = s.channelOutput := rfl
@[simp] theorem writeCtrl_faulted (c : Chan) (v : Byte) (s : State) : (writeCtrl c v s).faulted = s.faulted := rfl
@[simp] theorem writeCtrl_bufCapacity (c : Chan) (v : Byte) (s : State) : (writeCtrl c v s).bufCapacity = s.bufCapacity := rfl
@[simp] theorem writeCtrl_port (c : Chan) (v : Byte) (s : State) : (writeCtrl c v s).port = s.port := rfl
@[simp] theorem writeCtrl_results (c : Chan) (v : Byte) (s : State) : (writeCtrl c v s).results = s.results := rfl
@[simp] theorem writeCtrl_draws (c : Chan) (v : Byte) (s : State) : (writeCtrl c v s).draws = s.draws := rfl
@[simp] theorem freq_writeCtrl (c : Chan) (v : Byte) (s : State) (d : Chan) : freq (writeCtrl c v s) d = freq s d := rfl
@[simp] theorem ctrl_writeCtrl (c : Chan) (v : Byte) (s : State) (d : Chan) :
    ctrl (writeCtrl c v s) d = if c = d then v else ctrl s d := by
  simp [ctrl, writeCtrl, Vector.getElem_set, Fin.ext_iff]
@[simp] theorem phase_writeCtrl (c : Chan) (v : Byte) (s : State) (d : Chan) : phase (writeCtrl c v s) d = phase s d := rfl
@[simp] theorem out_writeCtrl (c : Chan) (v : Byte) (s : State) (d : Chan) : out (writeCtrl c v s) d = out s d := rfl

/-! ### writePhase -/

@[simp] theorem writePhase_clockRate (c : Chan) (p : Rat) (s : State) : (writePhase c p s).clockRate = s.clockRate := rfl
@[simp] theorem writePhase_sampleRate (c : Chan) (p : Rat) (s : State) : (writePhase c p s).sampleRate = s.sampleRate := rfl
@[simp] theorem writePhase_frequencyDivider (c : Chan) (p : Rat) (s : State) :
    (writePhase c p s).frequencyDivider = s.frequencyDivider := rfl
@[simp] theorem writePhase_controlByte (c : Chan) (p : Rat) (s : State) : (writePhase c p s).controlByte = s.controlByte := rfl
@[simp] theorem writePhase_lfsrState (c : Chan) (p : Rat) (s : State) : (writePhase c p s).lfsrState = s.lfsrState := rfl
@[simp] theorem writePhase_channelPhase (c : Chan) (p : Rat) (s : State) :
    (writePhase c p s).channelPhase = s.channelPhase.set c p := rfl
@[simp] theorem writePhase_channelOutput (c : Chan) (p : Rat) (s : State) :
    (writePhase c p s).channelOutput = s.channelOutput := rfl
@[simp] theorem writePhase_faulted (c : Chan) (p : Rat) (s : State) : (writePhase c p s).faulted = s.faulted := rfl
@[simp] theorem writePhase_bufCapacity (c : Chan) (p : Rat) (s : State) : (writePhase c p s).bufCapacity = s.bufCapacity := rfl
@[simp] theorem writePhase_port (c : Chan) (p : Rat) (s : State) : (writePhase c p s).port = s.port := rfl
@[simp] theorem writePhase_results (c : Chan) (p : Rat) (s : State) : (writePhase c p s).results = s.results := rfl
@[simp] theorem writePhase_draws (c : Chan) (p : Rat) (s : State) : (writePhase c p s).draws = s.draws := rfl
@[simp] theorem freq_writePhase (c : Chan) (p : Rat) (s : State) (d : Chan) : freq (writePhase c p s) d = freq s d := rfl
@[simp] theorem ctrl_writePhase (c : Chan) (p : Rat) (s : State) (d : Chan) : ctrl (writePhase c p s) d = ctrl s d := rfl
@[simp] theorem phase_writePhase (c : Chan) (p : Rat) (s : State) (d : Chan) :
    phase (writePhase c p s) d = if c = d then p else phase s d := by
  simp [phase, writePhase, Vector.getElem_set, Fin.ext_iff]
@[simp] theorem out_writePhase (c : Chan) (p : Rat) (s : State) (d : Chan) : out (writePhase c p s) d = out s d := rfl

/-! ### writeOutput -/

@[simp] theorem writeOutput_clockRate (c : Chan) (l : Level) (s : State) : (writeOutput c l s).clockRate = s.clockRate := rfl
@[simp] theorem writeOutput_sampleRate (c : Chan) (l : Level) (s : State) : (writeOutput c l s).sampleRate = s.sampleRate := rfl
@[simp] theorem writeOutput_frequencyDivider (c : Chan) (l : Level) (s : State) :
    (writeOutput c l s).frequencyDivider = s.frequencyDivider := rfl
@[simp] theorem writeOutput_controlByte (c : Chan) (l : Level) (s : State) :
    (writeOutput c l s).controlByte = s.controlByte := rfl
@[simp] theorem writeOutput_lfsrState (c : Chan) (l : Level) (s : State) : (writeOutput c l s).lfsrState = s.lfsrState := rfl
@[simp] theorem writeOutput_channelPhase (c : Chan) (l : Level) (s : State) :
    (writeOutput c l s).channelPhase = s.channelPhase := rfl
@[simp] theorem writeOutput_channelOutput (c : Chan) (l : Level) (s : State) :
    (writeOutput c l s).channelOutput = s.channelOutput.set c (some l) := rfl
@[simp] theorem writeOutput_faulted (c : Chan) (l : Level) (s : State) : (writeOutput c l s).faulted = s.faulted := rfl
@[simp] theorem writeOutput_bufCapacity (c : Chan) (l : Level) (s : State) :
    (writeOutput c l s).bufCapacity = s.bufCapacity := rfl
@[simp] theorem writeOutput_port (c : Chan) (l : Level) (s : State) : (writeOutput c l s).port = s.port := rfl
@[simp] theorem writeOutput_results (c : Chan) (l : Level) (s : State) : (writeOutput c l s).results = s.results := rfl
@[simp] theorem writeOutput_draws (c : Chan) (l : Level) (s : State) : (writeOutput c l s).draws = s.draws := rfl
@[simp] theorem freq_writeOutput (c : Chan) (l : Level) (s : State) (d : Chan) : freq (writeOutput c l s) d = freq s d := rfl
@[simp] theorem ctrl_writeOutput (c : Chan) (l : Level) (s : State) (d : Chan) : ctrl (writeOutput c l s) d = ctrl s d := rfl
@[simp] theorem phase_writeOutput (c : Chan) (l : Level) (s : State) (d : Chan) : phase (writeOutput c l s) d = phase s d := rfl
@[simp] theorem out_writeOutput (c : Chan) (l : Level) (s : State) (d : Chan) :
    out (writeOutput c l s) d = if c = d then some l else out s d := by
  simp [out, writeOutput, Vector.getElem_set, Fin.ext_iff]

/-! ### writeLfsr -/

@[simp] theorem writeLfsr_clockRate (l : Lfsr) (s : State) : (writeLfsr l s).clockRate = s.clockRate := rfl
@[simp] theorem writeLfsr_sampleRate (l : Lfsr) (s : State) : (writeLfsr l s).sampleRate = s.sampleRate := rfl
@[simp] theorem writeLfsr_frequencyDivider (l : Lfsr) (s : State) : (writeLfsr l s).frequencyDivider = s.frequencyDivider := rfl
@[simp] theorem writeLfsr_controlByte (l : Lfsr) (s : State) : (writeLfsr l s).controlByte = s.controlByte := rfl
@[simp] theorem writeLfsr_lfsrState (l : Lfsr) (s : State) : (writeLfsr l s).lfsrState = l := rfl
@[simp] theorem writeLfsr_channelPhase (l : Lfsr) (s : State) : (writeLfsr l s).channelPhase = s.channelPhase := rfl
@[simp] theorem writeLfsr_channelOutput (l : Lfsr) (s : State) : (writeLfsr l s).channelOutput = s.channelOutput := rfl
@[simp] theorem writeLfsr_faulted (l : Lfsr) (s : State) : (writeLfsr l s).faulted = s.faulted := rfl
@[simp] theorem writeLfsr_bufCapacity (l : Lfsr) (s : State) : (writeLfsr l s).bufCapacity = s.bufCapacity := rfl
@[simp] theorem writeLfsr_port (l : Lfsr) (s : State) : (writeLfsr l s).port = s.port := rfl
@[simp] theorem writeLfsr_results (l : Lfsr) (s : State) : (writeLfsr l s).results = s.results := rfl
@[simp] theorem writeLfsr_draws (l : Lfsr) (s : State) : (writeLfsr l s).draws = s.draws := rfl
@[simp] theorem freq_writeLfsr (l : Lfsr) (s : State) (d : Chan) : freq (writeLfsr l s) d = freq s d := rfl
@[simp] theorem ctrl_writeLfsr (l : Lfsr) (s : State) (d : Chan) : ctrl (writeLfsr l s) d = ctrl s d := rfl
@[simp] theorem phase_writeLfsr (l : Lfsr) (s : State) (d : Chan) : phase (writeLfsr l s) d = phase s d := rfl
@[simp] theorem out_writeLfsr (l : Lfsr) (s : State) (d : Chan) : out (writeLfsr l s) d = out s d := rfl

/-! ### deliver -/

@[simp] theorem deliver_clockRate (r : Result) (s : State) : (deliver r s).clockRate = s.clockRate := rfl
@[simp] theorem deliver_sampleRate (r : Result) (s : State) : (deliver r s).sampleRate = s.sampleRate := rfl
@[simp] theorem deliver_frequencyDivider (r : Result) (s : State) : (deliver r s).frequencyDivider = s.frequencyDivider := rfl
@[simp] theorem deliver_controlByte (r : Result) (s : State) : (deliver r s).controlByte = s.controlByte := rfl
@[simp] theorem deliver_lfsrState (r : Result) (s : State) : (deliver r s).lfsrState = s.lfsrState := rfl
@[simp] theorem deliver_channelPhase (r : Result) (s : State) : (deliver r s).channelPhase = s.channelPhase := rfl
@[simp] theorem deliver_channelOutput (r : Result) (s : State) : (deliver r s).channelOutput = s.channelOutput := rfl
@[simp] theorem deliver_faulted (r : Result) (s : State) : (deliver r s).faulted = s.faulted := rfl
@[simp] theorem deliver_bufCapacity (r : Result) (s : State) : (deliver r s).bufCapacity = s.bufCapacity := rfl
@[simp] theorem deliver_port (r : Result) (s : State) : (deliver r s).port = s.port := rfl
@[simp] theorem deliver_results (r : Result) (s : State) : (deliver r s).results = s.results ++ [r] := rfl
@[simp] theorem deliver_draws (r : Result) (s : State) : (deliver r s).draws = s.draws := rfl
@[simp] theorem freq_deliver (r : Result) (s : State) (d : Chan) : freq (deliver r s) d = freq s d := rfl
@[simp] theorem ctrl_deliver (r : Result) (s : State) (d : Chan) : ctrl (deliver r s) d = ctrl s d := rfl
@[simp] theorem phase_deliver (r : Result) (s : State) (d : Chan) : phase (deliver r s) d = phase s d := rfl
@[simp] theorem out_deliver (r : Result) (s : State) (d : Chan) : out (deliver r s) d = out s d := rfl

/-! ### takeFault -/

@[simp] theorem takeFault_clockRate (r : FaultRecord) (s : State) : (takeFault r s).clockRate = s.clockRate := rfl
@[simp] theorem takeFault_sampleRate (r : FaultRecord) (s : State) : (takeFault r s).sampleRate = s.sampleRate := rfl
@[simp] theorem takeFault_frequencyDivider (r : FaultRecord) (s : State) :
    (takeFault r s).frequencyDivider = s.frequencyDivider := rfl
@[simp] theorem takeFault_controlByte (r : FaultRecord) (s : State) : (takeFault r s).controlByte = s.controlByte := rfl
@[simp] theorem takeFault_lfsrState (r : FaultRecord) (s : State) : (takeFault r s).lfsrState = s.lfsrState := rfl
@[simp] theorem takeFault_channelPhase (r : FaultRecord) (s : State) : (takeFault r s).channelPhase = s.channelPhase := rfl
@[simp] theorem takeFault_channelOutput (r : FaultRecord) (s : State) : (takeFault r s).channelOutput = s.channelOutput := rfl
@[simp] theorem takeFault_faulted (r : FaultRecord) (s : State) : (takeFault r s).faulted = true := rfl
@[simp] theorem takeFault_bufCapacity (r : FaultRecord) (s : State) : (takeFault r s).bufCapacity = s.bufCapacity := rfl
@[simp] theorem takeFault_port (r : FaultRecord) (s : State) : (takeFault r s).port = s.port := rfl
@[simp] theorem takeFault_results (r : FaultRecord) (s : State) : (takeFault r s).results = s.results ++ [.fault r] := rfl
@[simp] theorem takeFault_draws (r : FaultRecord) (s : State) : (takeFault r s).draws = s.draws := rfl
@[simp] theorem freq_takeFault (r : FaultRecord) (s : State) (d : Chan) : freq (takeFault r s) d = freq s d := rfl
@[simp] theorem ctrl_takeFault (r : FaultRecord) (s : State) (d : Chan) : ctrl (takeFault r s) d = ctrl s d := rfl
@[simp] theorem phase_takeFault (r : FaultRecord) (s : State) (d : Chan) : phase (takeFault r s) d = phase s d := rfl
@[simp] theorem out_takeFault (r : FaultRecord) (s : State) (d : Chan) : out (takeFault r s) d = out s d := rfl

/-! ### takeDraw -/

@[simp] theorem takeDraw_clockRate (s : State) : (takeDraw s).clockRate = s.clockRate := rfl
@[simp] theorem takeDraw_sampleRate (s : State) : (takeDraw s).sampleRate = s.sampleRate := rfl
@[simp] theorem takeDraw_frequencyDivider (s : State) : (takeDraw s).frequencyDivider = s.frequencyDivider := rfl
@[simp] theorem takeDraw_controlByte (s : State) : (takeDraw s).controlByte = s.controlByte := rfl
@[simp] theorem takeDraw_lfsrState (s : State) : (takeDraw s).lfsrState = s.lfsrState := rfl
@[simp] theorem takeDraw_channelPhase (s : State) : (takeDraw s).channelPhase = s.channelPhase := rfl
@[simp] theorem takeDraw_channelOutput (s : State) : (takeDraw s).channelOutput = s.channelOutput := rfl
@[simp] theorem takeDraw_faulted (s : State) : (takeDraw s).faulted = s.faulted := rfl
@[simp] theorem takeDraw_bufCapacity (s : State) : (takeDraw s).bufCapacity = s.bufCapacity := rfl
@[simp] theorem takeDraw_port (s : State) : (takeDraw s).port = s.port := rfl
@[simp] theorem takeDraw_results (s : State) : (takeDraw s).results = s.results := rfl
@[simp] theorem takeDraw_draws (s : State) : (takeDraw s).draws = s.draws + 1 := rfl
@[simp] theorem freq_takeDraw (s : State) (d : Chan) : freq (takeDraw s) d = freq s d := rfl
@[simp] theorem ctrl_takeDraw (s : State) (d : Chan) : ctrl (takeDraw s) d = ctrl s d := rfl
@[simp] theorem phase_takeDraw (s : State) (d : Chan) : phase (takeDraw s) d = phase s d := rfl
@[simp] theorem out_takeDraw (s : State) (d : Chan) : out (takeDraw s) d = out s d := rfl

/-! ### setPort -/

@[simp] theorem setPort_clockRate (cmds : List Command) (s : State) : (setPort cmds s).clockRate = s.clockRate := rfl
@[simp] theorem setPort_sampleRate (cmds : List Command) (s : State) : (setPort cmds s).sampleRate = s.sampleRate := rfl
@[simp] theorem setPort_frequencyDivider (cmds : List Command) (s : State) :
    (setPort cmds s).frequencyDivider = s.frequencyDivider := rfl
@[simp] theorem setPort_controlByte (cmds : List Command) (s : State) : (setPort cmds s).controlByte = s.controlByte := rfl
@[simp] theorem setPort_lfsrState (cmds : List Command) (s : State) : (setPort cmds s).lfsrState = s.lfsrState := rfl
@[simp] theorem setPort_channelPhase (cmds : List Command) (s : State) : (setPort cmds s).channelPhase = s.channelPhase := rfl
@[simp] theorem setPort_channelOutput (cmds : List Command) (s : State) : (setPort cmds s).channelOutput = s.channelOutput := rfl
@[simp] theorem setPort_faulted (cmds : List Command) (s : State) : (setPort cmds s).faulted = s.faulted := rfl
@[simp] theorem setPort_bufCapacity (cmds : List Command) (s : State) : (setPort cmds s).bufCapacity = s.bufCapacity := rfl
@[simp] theorem setPort_port (cmds : List Command) (s : State) : (setPort cmds s).port = cmds := rfl
@[simp] theorem setPort_results (cmds : List Command) (s : State) : (setPort cmds s).results = s.results := rfl
@[simp] theorem setPort_draws (cmds : List Command) (s : State) : (setPort cmds s).draws = s.draws := rfl
@[simp] theorem freq_setPort (cmds : List Command) (s : State) (d : Chan) : freq (setPort cmds s) d = freq s d := rfl
@[simp] theorem ctrl_setPort (cmds : List Command) (s : State) (d : Chan) : ctrl (setPort cmds s) d = ctrl s d := rfl
@[simp] theorem phase_setPort (cmds : List Command) (s : State) (d : Chan) : phase (setPort cmds s) d = phase s d := rfl
@[simp] theorem out_setPort (cmds : List Command) (s : State) (d : Chan) : out (setPort cmds s) d = out s d := rfl

/-! ### Two states that agree in every field and under every accessor are equal -/

theorem State.ext_get {s t : State} (h1 : s.clockRate = t.clockRate) (h2 : s.sampleRate = t.sampleRate)
    (h3 : ∀ c, freq s c = freq t c) (h4 : ∀ c, ctrl s c = ctrl t c) (h5 : s.lfsrState = t.lfsrState)
    (h6 : ∀ c, phase s c = phase t c) (h7 : ∀ c, out s c = out t c) (h8 : s.faulted = t.faulted)
    (h9 : s.bufCapacity = t.bufCapacity) (h10 : s.port = t.port) (h11 : s.results = t.results)
    (h12 : s.draws = t.draws) : s = t := by
  have e3 : s.frequencyDivider = t.frequencyDivider := Vector.ext fun i hi => h3 ⟨i, hi⟩
  have e4 : s.controlByte = t.controlByte := Vector.ext fun i hi => h4 ⟨i, hi⟩
  have e6 : s.channelPhase = t.channelPhase := Vector.ext fun i hi => h6 ⟨i, hi⟩
  have e7 : s.channelOutput = t.channelOutput := Vector.ext fun i hi => h7 ⟨i, hi⟩
  cases s
  cases t
  simp_all

end Sys2Proof.Machine
end

