-- ==== Sys2Proof/Laws/Noise.lean ====
section
/-!
SUPPORT. Laws/Noise.lean: NSTEP as a map on 17-bit values: its bits, its inverse, 0 as its fixed point (10_state R31).
-/

namespace Sys2Proof.Machine

/-- Bit 16 of the new register is the bit shifted out (R100). -/
theorem noiseNext_top (l : Lfsr) : (noiseNext l).getLsbD 16 = noiseBit l := by
  unfold noiseNext
  split <;> rename_i h
  · simp [lfsrTapMask, h]
  · simp [h]

/-- The map that undoes NSTEP: the register shifted left, its top bit XORed out through the mask and put back at bit 0 (R31). -/
def noisePrev (l : Lfsr) : Lfsr :=
  if l.getLsbD 16 then ((l ^^^ lfsrTapMask) <<< 1) ||| 1#17 else l <<< 1

theorem noisePrev_noiseNext (l : Lfsr) : noisePrev (noiseNext l) = l := by
  unfold noisePrev
  rw [noiseNext_top]
  unfold noiseNext
  cases h : noiseBit l <;> simp only [if_true, if_false, Bool.false_eq_true]
  · ext i hi
    rcases i with _ | i
    · simpa [noiseBit] using h.symm
    · simp only [BitVec.getElem_shiftLeft]
      simp [show ¬(i + 1 < 1) by omega, Nat.add_comm]
      rw [BitVec.getLsbD_eq_getElem (by omega)]
  · rw [BitVec.xor_assoc, BitVec.xor_self, BitVec.xor_zero]
    ext i hi
    rcases i with _ | i
    · simpa [noiseBit] using h.symm
    · simp only [BitVec.getElem_or, BitVec.getElem_shiftLeft]
      simp [show ¬(i + 1 < 1) by omega, Nat.add_comm]
      rw [BitVec.getLsbD_eq_getElem (by omega)]

theorem noiseNext_injective : Function.Injective noiseNext :=
  Function.LeftInverse.injective noisePrev_noiseNext

@[simp] theorem noiseNext_zero : noiseNext 0#17 = 0#17 := by decide

/-- The register never comes to 0 from another value (R31, R169). -/
theorem noiseNext_ne_zero {l : Lfsr} (h : l ≠ 0#17) : noiseNext l ≠ 0#17 :=
  fun e => h (noiseNext_injective (e.trans noiseNext_zero.symm))

theorem noiseNext_iterate_ne_zero {l : Lfsr} (h : l ≠ 0#17) (k : Nat) : noiseNext^[k] l ≠ 0#17 := by
  induction k generalizing l with
  | zero => exact h
  | succ k ih => exact ih (noiseNext_ne_zero h)

end Sys2Proof.Machine
end

