-- ==== Sys2Proof/Laws/Ops.lean ====
section
/-!
SUPPORT. Laws/Ops.lean: what each shared operation answers: the faulted condition, operand checks, construction.
-/

namespace Sys2Proof.Machine

/-! ### The faulted condition -/

theorem whileLive_of_faulted {s : State} (h : s.faulted = true) (body : Host.Outcome State Fault Refusal) :
    whileLive s body = .fault .engineFaulted := by simp [whileLive, h]

theorem whileLive_of_live {s : State} (h : s.faulted = false) (body : Host.Outcome State Fault Refusal) :
    whileLive s body = body := by simp [whileLive, h]

/-- A guarded command answers a next state only in a live state, and then the one its body answers. -/
theorem whileLive_eq_next {s t : State} {body : Host.Outcome State Fault Refusal} :
    whileLive s body = .next t ↔ s.faulted = false ∧ body = .next t := by
  cases h : s.faulted <;> simp [whileLive, h]

/-! ### Operand checks -/

theorem channelOf_eq_some {ch : Int} {c : Chan} : channelOf ch = some c ↔ ch = (c.val : Int) := by
  unfold channelOf
  split
  · simp only [Option.some.injEq, Fin.ext_iff]
    omega
  · have := c.isLt
    simp only [reduceCtorEq, false_iff]
    omega

theorem channelOf_eq_none {ch : Int} : channelOf ch = none ↔ ¬(0 ≤ ch ∧ ch < 4) := by
  unfold channelOf
  split <;> simp_all

@[simp] theorem channelOf_val (c : Chan) : channelOf (c.val : Int) = some c :=
  channelOf_eq_some.2 rfl

theorem dividerOf_eq_some {v : Int} {n : Nat} : dividerOf v = some n ↔ v = (n : Int) := by
  unfold dividerOf
  split
  · simp only [reduceCtorEq, false_iff]
    omega
  · simp only [Option.some.injEq]
    omega

theorem dividerOf_eq_none {v : Int} : dividerOf v = none ↔ v < 0 := by
  unfold dividerOf
  split <;> simp_all

theorem controlOf_eq_some {v : Int} {b : Byte} : controlOf v = some b ↔ v = (b.toNat : Int) := by
  have := b.isLt
  unfold controlOf
  split
  · simp only [Option.some.injEq, BitVec.toNat_eq, BitVec.toNat_ofNat]
    omega
  · simp only [reduceCtorEq, false_iff]
    omega

theorem controlOf_eq_none {v : Int} : controlOf v = none ↔ ¬(0 ≤ v ∧ v < 256) := by
  unfold controlOf
  split <;> simp_all

theorem controlOf_toNat (b : Byte) : controlOf (b.toNat : Int) = some b := controlOf_eq_some.2 rfl

/-- The volume is at most 15 (R115). -/
theorem volume_le (b : Byte) : volume b ≤ 15 := by
  have h : (b &&& 0x0F#8).toNat = b.toNat &&& 15 := by simp [BitVec.toNat_and]
  rw [volume, h]
  exact Nat.and_le_right

theorem Level.toInt_eq (l : Level) : l.toInt = 1 ∨ l.toInt = -1 := by cases l <;> simp [Level.toInt]

@[simp] theorem exceedsCapacity_none (n : Nat) : exceedsCapacity n none = false := rfl

@[simp] theorem exceedsCapacity_some (n cap : Nat) : exceedsCapacity n (some cap) = decide (cap < n) := rfl

/-! ### Bytes of a buffer -/

@[simp] theorem pcmBytes_nil : pcmBytes [] = [] := rfl

@[simp] theorem pcmBytes_cons (x : Sample) (buf : List Sample) :
    pcmBytes (x :: buf) = x.extractLsb' 0 8 :: x.extractLsb' 8 8 :: pcmBytes buf := rfl

theorem pcmBytes_append (a b : List Sample) : pcmBytes (a ++ b) = pcmBytes a ++ pcmBytes b := by
  simp [pcmBytes]

/-! ### Construction -/

/-- CONSTRUCT answers a next state exactly when both parameters are at least 1, and then the fresh one. -/
theorem construct_eq_next {cr sr : Option Int} {cap : Option Nat} {s : State} :
    construct cr sr cap = .next s ↔
      1 ≤ cr.getD Config.defaultClockRate ∧ 1 ≤ sr.getD Config.defaultSampleRate ∧
        s = State.fresh (cr.getD Config.defaultClockRate).toNat (sr.getD Config.defaultSampleRate).toNat cap := by
  unfold construct
  simp only
  split
  · simp only [reduceCtorEq, false_iff]
    omega
  · simp only [Host.Outcome.next.injEq]
    constructor
    · intro h
      exact ⟨by omega, by omega, h.symm⟩
    · exact fun h => h.2.2.symm

end Sys2Proof.Machine
end

