-- ==== Sys2Proof/Laws/PerInstr.lean ====
section
/-!
SUPPORT. Laws/PerInstr.lean: the family Encodable, one lemma per constructor of Instr: an abstract command has a command word exactly
when it is well-formed, and is then legal.
-/

namespace Sys2Proof.Laws.Encodable

/-- `encode` answers a word exactly for the well-formed commands, and a well-formed command meets the preconditions of R70. -/
def Statement (i : Instr) : Prop := (encode i).isSome = i.wellFormed ∧ (i.wellFormed = true → i.legal = true)

theorem isSome_encode (i : Instr) : (encode i).isSome = i.wellFormed := by
  unfold encode
  cases i.wellFormed <;> simp

theorem wrfreq (ch v : Int) : Statement (.wrfreq ch v) :=
  ⟨isSome_encode _, by
    simp only [Instr.wellFormed, Instr.legal, imm24Ok, Bool.and_eq_true, decide_eq_true_eq]
    exact fun h => ⟨h.1, h.2.1⟩⟩

theorem wrctrl (ch v : Int) : Statement (.wrctrl ch v) := ⟨isSome_encode _, id⟩

theorem step : Statement .step := ⟨isSome_encode _, id⟩

theorem render (n : Int) : Statement (.render n) :=
  ⟨isSome_encode _, by
    simp only [Instr.wellFormed, Instr.legal, imm24Ok, decide_eq_true_eq]
    exact fun h => h.1⟩

end Sys2Proof.Laws.Encodable
end

