-- ==== Sys2Proof/Laws/Quant.lean ====
section
/-!
SUPPORT. Laws/Quant.lean: the quantiser's argument, and its range on the mixes a sample step can make.
-/

namespace Sys2Proof.Machine

/-- The product of R132 is `32767 * M / 120`, exact. -/
theorem quant_eq (M : Int) : quant M = roundHalfAway (32767 * (M : Rat) / 120) := by
  unfold quant mixValue
  congr 1
  ring

/-- Every sample of a mix in -60..60 lies in -16384..16384 (R134). -/
theorem quant_mem {M : Int} (h1 : -60 ≤ M) (h2 : M ≤ 60) : -16384 ≤ quant M ∧ quant M ≤ 16384 := by
  have h : ∀ k : Fin 121, -16384 ≤ quant ((k.val : Int) - 60) ∧ quant ((k.val : Int) - 60) ≤ 16384 := by decide +kernel
  have := h ⟨(M + 60).toNat, by omega⟩
  rwa [show (((M + 60).toNat : Nat) : Int) - 60 = M by omega] at this

/-- A sample in range is read back from its 16-bit pattern (R56). -/
theorem toInt_ofInt_sample {x : Int} (h1 : -32768 ≤ x) (h2 : x ≤ 32767) : (BitVec.ofInt 16 x).toInt = x := by
  rw [BitVec.toInt_ofInt]
  exact Int.bmod_eq_of_le (by omega) (by omega)

theorem quantSample_toInt {M : Int} (h1 : -60 ≤ M) (h2 : M ≤ 60) : (quantSample M).toInt = quant M :=
  toInt_ofInt_sample (by have := quant_mem h1 h2; omega) (by have := quant_mem h1 h2; omega)

end Sys2Proof.Machine
end

