-- ==== Sys2Proof/Laws/Sample.lean ====
section
/-!
SUPPORT. Laws/Sample.lean: what one pass of the channel loop and one sample step do, field by field; the loop equals its closed form.
-/

namespace Sys2Proof.Machine

/-! ### One pass of the channel loop -/

/-- The level the pass for `c` takes from the state it finds (R112, R113). -/
def passLevel (s : State) (c : Chan) : Level :=
  if isNoise (ctrl s c) then levelOfBit (noiseBit s.lfsrState) else toneLevel (phaseSum s c)

/-- The noise register after the pass for `c` (R103). -/
def passLfsr (s : State) (c : Chan) : Lfsr :=
  if isNoise (ctrl s c) then noiseNext s.lfsrState else s.lfsrState

theorem selectLevel_noise {c : Chan} {s : State} (h : isNoise (ctrl s c) = true) (tone : Level) :
    selectLevel c tone s = (levelOfBit (noiseBit s.lfsrState), writeLfsr (noiseNext s.lfsrState) s) := if_pos h

theorem selectLevel_tone {c : Chan} {s : State} (h : isNoise (ctrl s c) = false) (tone : Level) :
    selectLevel c tone s = (tone, s) := if_neg (by simp [h])

/-- One pass writes the noise register (in noise mode), the phase and the output of its channel, and nothing else; it adds the
channel's level times its volume to the sum. -/
theorem channelStep_eq (acc : State × Int) (c : Chan) :
    channelStep acc c = (writeOutput c (passLevel acc.1 c) (writeLfsr (passLfsr acc.1 c)
      (writePhase c (wrapPhase (phaseSum acc.1 c)) acc.1)),
      acc.2 + (passLevel acc.1 c).toInt * (volume (ctrl acc.1 c) : Int)) := by
  unfold channelStep passLevel passLfsr
  cases h : isNoise (ctrl acc.1 c)
  · simp only [selectLevel_tone (s := writePhase c (wrapPhase (phaseSum acc.1 c)) acc.1) h]
    rfl
  · simp only [selectLevel_noise (s := writePhase c (wrapPhase (phaseSum acc.1 c)) acc.1) h]
    rfl

theorem channelStep_fst (acc : State × Int) (c : Chan) :
    (channelStep acc c).1 = writeOutput c (passLevel acc.1 c) (writeLfsr (passLfsr acc.1 c)
      (writePhase c (wrapPhase (phaseSum acc.1 c)) acc.1)) := by rw [channelStep_eq]

theorem channelStep_snd (acc : State × Int) (c : Chan) :
    (channelStep acc c).2 = acc.2 + (passLevel acc.1 c).toInt * (volume (ctrl acc.1 c) : Int) := by
  rw [channelStep_eq]

/-! ### The wrap test and what hangs on it -/

theorem wraps_iff {p : Rat} : wraps p = true ↔ 1 ≤ p := by
  unfold wraps
  exact decide_eq_true_iff

theorem wrapPhase_of_le {p : Rat} (h : 1 ≤ p) : wrapPhase p = p - 1 := if_pos (wraps_iff.2 h)

theorem wrapPhase_of_lt {p : Rat} (h : p < 1) : wrapPhase p = p := if_neg fun e => not_le.2 h (wraps_iff.1 e)

theorem toneLevel_of_le {p : Rat} (h : 1 ≤ p) : toneLevel p = .plus := if_pos (wraps_iff.2 h)

theorem toneLevel_of_lt {p : Rat} (h : p < 1) : toneLevel p = .minus := if_neg fun e => not_le.2 h (wraps_iff.1 e)

/-- The wrapped phase stays at or above 0 if the sum is (R30). -/
theorem wrapPhase_nonneg {p : Rat} (h : 0 ≤ p) : 0 ≤ wrapPhase p := by
  rcases le_or_gt 1 p with h1 | h1
  · rw [wrapPhase_of_le h1]
    linarith
  · rwa [wrapPhase_of_lt h1]

/-! ### What the increment depends on -/

theorem phaseIncrement_congr {s t : State} {c : Chan} (h1 : s.clockRate = t.clockRate)
    (h2 : s.sampleRate = t.sampleRate) (h3 : freq s c = freq t c) : phaseIncrement s c = phaseIncrement t c := by
  simp [phaseIncrement, divisor, h1, h2, h3]

theorem phaseSum_congr {s t : State} {c : Chan} (h1 : s.clockRate = t.clockRate) (h2 : s.sampleRate = t.sampleRate)
    (h3 : freq s c = freq t c) (h4 : phase s c = phase t c) : phaseSum s c = phaseSum t c := by
  simp [phaseSum, phaseIncrement_congr h1 h2 h3, h4]

theorem phaseIncrement_nonneg (s : State) (c : Chan) : 0 ≤ phaseIncrement s c := by
  unfold phaseIncrement
  positivity

theorem phaseIncrement_pos {s : State} (h1 : 1 ≤ s.clockRate) (h2 : 1 ≤ s.sampleRate) (c : Chan) :
    0 < phaseIncrement s c := by
  have : 0 < divisor s c * s.sampleRate := Nat.mul_pos (Nat.succ_pos _) h2
  have : 0 < s.clockRate := h1
  unfold phaseIncrement
  positivity

/-! ### The sample step, field by field -/

theorem sampleStep_eq (s : State) :
    sampleStep s = channelStep (channelStep (channelStep (channelStep (s, 0) 0) 1) 2) 3 := rfl

@[simp] theorem sampleStep_clockRate (s : State) : (sampleStep s).1.clockRate = s.clockRate := by
  simp [sampleStep_eq, channelStep_fst]

@[simp] theorem sampleStep_sampleRate (s : State) : (sampleStep s).1.sampleRate = s.sampleRate := by
  simp [sampleStep_eq, channelStep_fst]

@[simp] theorem sampleStep_frequencyDivider (s : State) :
    (sampleStep s).1.frequencyDivider = s.frequencyDivider := by
  simp [sampleStep_eq, channelStep_fst]

@[simp] theorem sampleStep_controlByte (s : State) : (sampleStep s).1.controlByte = s.controlByte := by
  simp [sampleStep_eq, channelStep_fst]

@[simp] theorem sampleStep_faulted (s : State) : (sampleStep s).1.faulted = s.faulted := by
  simp [sampleStep_eq, channelStep_fst]

@[simp] theorem sampleStep_bufCapacity (s : State) : (sampleStep s).1.bufCapacity = s.bufCapacity := by
  simp [sampleStep_eq, channelStep_fst]

@[simp] theorem sampleStep_port (s : State) : (sampleStep s).1.port = s.port := by
  simp [sampleStep_eq, channelStep_fst]

@[simp] theorem sampleStep_results (s : State) : (sampleStep s).1.results = s.results := by
  simp [sampleStep_eq, channelStep_fst]

@[simp] theorem sampleStep_draws (s : State) : (sampleStep s).1.draws = s.draws := by
  simp [sampleStep_eq, channelStep_fst]

@[simp] theorem freq_sampleStep (s : State) (c : Chan) : freq (sampleStep s).1 c = freq s c := by
  simp [freq]

@[simp] theorem ctrl_sampleStep (s : State) (c : Chan) : ctrl (sampleStep s).1 c = ctrl s c := by
  simp [ctrl]

@[simp] theorem phaseIncrement_sampleStep (s : State) (c : Chan) :
    phaseIncrement (sampleStep s).1 c = phaseIncrement s c :=
  phaseIncrement_congr (by simp) (by simp) (by simp)

/-- Every phase is accumulated and wrapped, in either mode (R112, R113, R118). -/
@[simp] theorem phase_sampleStep (s : State) (c : Chan) :
    phase (sampleStep s).1 c = wrapPhase (phaseSum s c) := by
  fin_cases c <;> simp [sampleStep_eq, channelStep_fst, phaseSum, phaseIncrement, divisor]

/-- The noise register advances once per noise-mode channel (R103). -/
@[simp] theorem sampleStep_lfsrState (s : State) :
    (sampleStep s).1.lfsrState = noiseNext^[noiseCount s] s.lfsrState := by
  cases h0 : isNoise (ctrl s 0) <;> cases h1 : isNoise (ctrl s 1) <;> cases h2 : isNoise (ctrl s 2) <;>
    cases h3 : isNoise (ctrl s 3) <;>
    simp [sampleStep_eq, channelStep_fst, passLfsr, noiseCount, channelOrder, h0, h1, h2, h3]

/-- Every output holds the level of this sample, in its closed form (R112, R113, R103). -/
@[simp] theorem out_sampleStep (s : State) (c : Chan) : out (sampleStep s).1 c = some (stepLevel s c) := by
  cases h0 : isNoise (ctrl s 0) <;> cases h1 : isNoise (ctrl s 1) <;> cases h2 : isNoise (ctrl s 2) <;>
    cases h3 : isNoise (ctrl s 3) <;> fin_cases c <;>
    simp [sampleStep_eq, channelStep_fst, passLfsr, passLevel, stepLevel, noiseRank, channelOrder, phaseSum,
      phaseIncrement, divisor, h0, h1, h2, h3]

/-- The sum the loop makes is the sum of the four closed-form terms (R116, R117). -/
@[simp] theorem sampleStep_mix (s : State) : (sampleStep s).2 = stepMix s := by
  cases h0 : isNoise (ctrl s 0) <;> cases h1 : isNoise (ctrl s 1) <;> cases h2 : isNoise (ctrl s 2) <;>
    cases h3 : isNoise (ctrl s 3) <;>
    simp [sampleStep_eq, channelStep_fst, channelStep_snd, passLfsr, passLevel, stepMix, stepTerm, stepLevel,
      noiseRank, channelOrder, phaseSum, phaseIncrement, divisor, h0, h1, h2, h3]

/-! ### A sample step does not depend on the host's side -/

/-- The state with the host's two lists and the free-value counter replaced. -/
def withHost (p : List Command) (r : List Result) (d : Nat) (s : State) : State :=
  { s with port := p, results := r, draws := d }

theorem engine_eq_withHost (s : State) : engine s = withHost [] [] 0 s := rfl

theorem engine_withHost (p : List Command) (r : List Result) (d : Nat) (s : State) :
    engine (withHost p r d s) = engine s := rfl

theorem eq_withHost_of_engine {s t : State} (h : engine s = engine t) :
    s = withHost s.port s.results s.draws t := by
  have : withHost s.port s.results s.draws (engine s) = withHost s.port s.results s.draws (engine t) := by rw [h]
  exact this

@[simp] theorem stepLevel_withHost (p : List Command) (r : List Result) (d : Nat) (s : State) (c : Chan) :
    stepLevel (withHost p r d s) c = stepLevel s c := rfl

@[simp] theorem stepMix_withHost (p : List Command) (r : List Result) (d : Nat) (s : State) :
    stepMix (withHost p r d s) = stepMix s := rfl

theorem sampleStep_withHost (p : List Command) (r : List Result) (d : Nat) (s : State) :
    (sampleStep (withHost p r d s)).1 = withHost p r d (sampleStep s).1 := by
  refine State.ext_get ?_ ?_ (fun c => ?_) (fun c => ?_) ?_ (fun c => ?_) (fun c => ?_) ?_ ?_ ?_ ?_ ?_
  · rw [sampleStep_clockRate]; exact (sampleStep_clockRate s).symm
  · rw [sampleStep_sampleRate]; exact (sampleStep_sampleRate s).symm
  · rw [freq_sampleStep]; exact (freq_sampleStep s c).symm
  · rw [ctrl_sampleStep]; exact (ctrl_sampleStep s c).symm
  · rw [sampleStep_lfsrState]; exact (sampleStep_lfsrState s).symm
  · rw [phase_sampleStep]; exact (phase_sampleStep s c).symm
  · rw [out_sampleStep]; exact (out_sampleStep s c).symm
  · rw [sampleStep_faulted]; exact (sampleStep_faulted s).symm
  · rw [sampleStep_bufCapacity]; exact (sampleStep_bufCapacity s).symm
  · exact sampleStep_port _
  · exact sampleStep_results _
  · exact sampleStep_draws _

end Sys2Proof.Machine
end

