-- ==== Sys2Proof/Laws/Render.lean ====
section
/-!
SUPPORT. Laws/Render.lean: the sample loop as iterated sample steps: its state, its buffer, splitting it, what it leaves unchanged.
-/

namespace Sys2Proof.Machine

/-! ### Iterated sample steps -/

@[simp] theorem sampleSteps_zero (s : State) : sampleSteps 0 s = s := rfl

theorem sampleSteps_succ (n : Nat) (s : State) : sampleSteps (n + 1) s = sampleSteps n (sampleStep s).1 := rfl

theorem sampleSteps_add (m n : Nat) (s : State) : sampleSteps (m + n) s = sampleSteps n (sampleSteps m s) := by
  induction m generalizing s with
  | zero => simp
  | succ m ih => rw [Nat.succ_add, sampleSteps_succ, ih, ← sampleSteps_succ]

theorem sampleSteps_succ' (n : Nat) (s : State) : sampleSteps (n + 1) s = (sampleStep (sampleSteps n s)).1 :=
  sampleSteps_add n 1 s

/-- A property every sample step keeps holds after any number of them. -/
theorem sampleSteps_induction {P : State → Prop} (h : ∀ s, P s → P (sampleStep s).1) (n : Nat) {s : State}
    (hs : P s) : P (sampleSteps n s) := by
  induction n generalizing s with
  | zero => exact hs
  | succ n ih => exact ih (h s hs)

@[simp] theorem sampleSteps_clockRate (n : Nat) (s : State) : (sampleSteps n s).clockRate = s.clockRate :=
  sampleSteps_induction (P := fun t => t.clockRate = s.clockRate) (fun t h => by simp [h]) n rfl

@[simp] theorem sampleSteps_sampleRate (n : Nat) (s : State) : (sampleSteps n s).sampleRate = s.sampleRate :=
  sampleSteps_induction (P := fun t => t.sampleRate = s.sampleRate) (fun t h => by simp [h]) n rfl

@[simp] theorem sampleSteps_frequencyDivider (n : Nat) (s : State) :
    (sampleSteps n s).frequencyDivider = s.frequencyDivider :=
  sampleSteps_induction (P := fun t => t.frequencyDivider = s.frequencyDivider) (fun t h => by simp [h]) n rfl

@[simp] theorem sampleSteps_controlByte (n : Nat) (s : State) : (sampleSteps n s).controlByte = s.controlByte :=
  sampleSteps_induction (P := fun t => t.controlByte = s.controlByte) (fun t h => by simp [h]) n rfl

@[simp] theorem sampleSteps_faulted (n : Nat) (s : State) : (sampleSteps n s).faulted = s.faulted :=
  sampleSteps_induction (P := fun t => t.faulted = s.faulted) (fun t h => by simp [h]) n rfl

@[simp] theorem sampleSteps_bufCapacity (n : Nat) (s : State) : (sampleSteps n s).bufCapacity = s.bufCapacity :=
  sampleSteps_induction (P := fun t => t.bufCapacity = s.bufCapacity) (fun t h => by simp [h]) n rfl

@[simp] theorem sampleSteps_port (n : Nat) (s : State) : (sampleSteps n s).port = s.port :=
  sampleSteps_induction (P := fun t => t.port = s.port) (fun t h => by simp [h]) n rfl

@[simp] theorem sampleSteps_results (n : Nat) (s : State) : (sampleSteps n s).results = s.results :=
  sampleSteps_induction (P := fun t => t.results = s.results) (fun t h => by simp [h]) n rfl

@[simp] theorem sampleSteps_draws (n : Nat) (s : State) : (sampleSteps n s).draws = s.draws :=
  sampleSteps_induction (P := fun t => t.draws = s.draws) (fun t h => by simp [h]) n rfl

@[simp] theorem freq_sampleSteps (n : Nat) (s : State) (c : Chan) : freq (sampleSteps n s) c = freq s c := by
  simp [freq]

@[simp] theorem ctrl_sampleSteps (n : Nat) (s : State) (c : Chan) : ctrl (sampleSteps n s) c = ctrl s c := by
  simp [ctrl]

@[simp] theorem phaseIncrement_sampleSteps (n : Nat) (s : State) (c : Chan) :
    phaseIncrement (sampleSteps n s) c = phaseIncrement s c :=
  phaseIncrement_congr (by simp) (by simp) (by simp)

@[simp] theorem noiseCount_sampleSteps (n : Nat) (s : State) : noiseCount (sampleSteps n s) = noiseCount s := by
  simp [noiseCount]

@[simp] theorem noiseRank_sampleSteps (n : Nat) (s : State) (c : Chan) :
    noiseRank (sampleSteps n s) c = noiseRank s c := by simp [noiseRank]

/-- Over `n` sample steps the noise register advances `n` times the number of noise-mode channels (R103). -/
@[simp] theorem sampleSteps_lfsrState (n : Nat) (s : State) :
    (sampleSteps n s).lfsrState = noiseNext^[n * noiseCount s] s.lfsrState := by
  induction n with
  | zero => simp
  | succ n ih =>
    rw [sampleSteps_succ', sampleStep_lfsrState, noiseCount_sampleSteps, ih, ← Function.iterate_add_apply]
    congr 2
    ring

/-- After at least one sample step every output holds the level of the last one (R118). -/
theorem out_sampleSteps_succ (n : Nat) (s : State) (c : Chan) :
    out (sampleSteps (n + 1) s) c = some (stepLevel (sampleSteps n s) c) := by
  rw [sampleSteps_succ', out_sampleStep]

theorem phase_sampleSteps_succ (n : Nat) (s : State) (c : Chan) :
    phase (sampleSteps (n + 1) s) c = wrapPhase (phase (sampleSteps n s) c + phaseIncrement s c) := by
  rw [sampleSteps_succ', phase_sampleStep, phaseSum, phaseIncrement_sampleSteps]

/-! ### The sample loop -/

/-- The mixes of `n` sample steps, in order. -/
def mixes : Nat → State → List Int
  | 0, _ => []
  | n + 1, s => stepMix s :: mixes n (sampleStep s).1

@[simp] theorem mixes_length (n : Nat) (s : State) : (mixes n s).length = n := by
  induction n generalizing s with
  | zero => rfl
  | succ n ih => simp [mixes, ih]

theorem mixes_add (m n : Nat) (s : State) : mixes (m + n) s = mixes m s ++ mixes n (sampleSteps m s) := by
  induction m generalizing s with
  | zero => simp [mixes]
  | succ m ih => rw [Nat.succ_add, mixes, ih, mixes, sampleSteps_succ, List.cons_append]

theorem mixes_getElem (n : Nat) (s : State) (i : Nat) (h : i < (mixes n s).length) :
    (mixes n s)[i] = stepMix (sampleSteps i s) := by
  induction n generalizing s i with
  | zero => simp [mixes] at h
  | succ n ih =>
    cases i with
    | zero => rfl
    | succ i =>
      have h' : i < (mixes n (sampleStep s).1).length := by simpa using h
      simpa [mixes, sampleSteps_succ] using ih (sampleStep s).1 i h'

theorem sampleSteps_withHost (n : Nat) (p : List Command) (r : List Result) (d : Nat) (s : State) :
    sampleSteps n (withHost p r d s) = withHost p r d (sampleSteps n s) := by
  induction n generalizing s with
  | zero => rfl
  | succ n ih => rw [sampleSteps_succ, sampleStep_withHost, ih, ← sampleSteps_succ]

@[simp] theorem mixes_withHost (n : Nat) (p : List Command) (r : List Result) (d : Nat) (s : State) :
    mixes n (withHost p r d s) = mixes n s := by
  induction n generalizing s with
  | zero => rfl
  | succ n ih => rw [mixes, stepMix_withHost, sampleStep_withHost, ih, ← mixes]

/-- The sample loop of RENDER runs `n` sample steps and appends their quantised mixes (R130, R54). -/
theorem renderLoop_eq (n : Nat) (s : State) (buf : List Sample) :
    renderLoop n s buf = (sampleSteps n s, buf ++ (mixes n s).map quantSample) := by
  induction n generalizing s buf with
  | zero => simp [renderLoop, mixes]
  | succ n ih => simp [renderLoop, ih, mixes, sampleSteps_succ, bufAppend]

/-- RENDER within capacity: `n` sample steps, and their buffer (R130). -/
theorem renderCount_of_fits {n : Nat} {s : State} (h : exceedsCapacity n s.bufCapacity = false) :
    renderCount n s = deliver (.buffer ((mixes n s).map quantSample)) (sampleSteps n s) := by
  simp [renderCount, h, renderLoop_eq]

/-- RENDER above capacity (R140). -/
theorem renderCount_of_exceeds {n : Nat} {s : State} (h : exceedsCapacity n s.bufCapacity = true) :
    renderCount n s = exhaust n s := by simp [renderCount, h]

/-- Some number of sample steps, at most `n`, had been done when the buffer ran out (R140, U6). -/
theorem exhaust_eq (n : Nat) (s : State) :
    ∃ k, k ≤ n ∧ exhaust n s = takeFault (.resourceExhausted n) (sampleSteps k (takeDraw s)) :=
  ⟨_, Nat.min_le_left _ _, rfl⟩

end Sys2Proof.Machine
end

