-- ==== Sys2Proof/Laws/Step.lean ====
section
/-!
SUPPORT. Laws/Step.lean: what each meaning answers on operands in range, and everything a command or a step can do (the inversion
lemmas the invariants are proved from).
-/

namespace Sys2Proof.Machine

/-! ### The mix of one sample step -/

theorem stepTerm_range (s : State) (c : Chan) : -15 ≤ stepTerm s c ∧ stepTerm s c ≤ 15 := by
  have h := volume_le (ctrl s c)
  unfold stepTerm
  rcases Level.toInt_eq (stepLevel s c) with e | e <;> rw [e] <;> omega

/-- |M| is at most 60 (R33, R117). -/
theorem stepMix_range (s : State) : -60 ≤ stepMix s ∧ stepMix s ≤ 60 := by
  have h0 := stepTerm_range s 0
  have h1 := stepTerm_range s 1
  have h2 := stepTerm_range s 2
  have h3 := stepTerm_range s 3
  unfold stepMix
  omega

theorem mem_mixes_range {n : Nat} {s : State} {M : Int} (h : M ∈ mixes n s) : -60 ≤ M ∧ M ≤ 60 := by
  obtain ⟨i, hi, rfl⟩ := List.getElem_of_mem h
  rw [mixes_getElem]
  exact stepMix_range _

/-! ### What each meaning answers -/

theorem exec_wrfreq {s : State} (h : s.faulted = false) (c : Chan) (n : Nat) :
    exec (.wrfreq (c.val : Int) (n : Int)) s = .next (deliver .nothing (writeFreq c n s)) := by
  have e : dividerOf (n : Int) = some n := dividerOf_eq_some.2 rfl
  simp [exec, execWrfreq, whileLive_of_live h, e]

theorem exec_wrctrl {s : State} (h : s.faulted = false) (c : Chan) (b : Byte) :
    exec (.wrctrl (c.val : Int) (b.toNat : Int)) s = .next (deliver .nothing (writeCtrl c b s)) := by
  simp [exec, execWrctrl, whileLive_of_live h, controlOf_toNat]

theorem exec_step {s : State} (h : s.faulted = false) :
    exec .step s = .next (deliver (.mix (stepMix s)) (sampleStep s).1) := by
  simp [exec, execStep, whileLive_of_live h]

theorem exec_render {s : State} (h : s.faulted = false) (n : Nat) :
    exec (.render (n : Int)) s = .next (renderCount n s) := by
  have e : ¬((n : Int) < 0) := by omega
  simp [exec, execRender, whileLive_of_live h, e]

/-! ### Everything a command can do -/

/-- The next states a command can lead to from `s`, apart from the port. -/
inductive Effect (s : State) : State → Prop where
  | wroteFreq (c : Chan) (n : Nat) : Effect s (deliver .nothing (writeFreq c n s))
  | wroteCtrl (c : Chan) (b : Byte) : Effect s (deliver .nothing (writeCtrl c b s))
  | stepped : Effect s (deliver (.mix (stepMix s)) (sampleStep s).1)
  | rendered (n : Nat) (h : exceedsCapacity n s.bufCapacity = false) :
      Effect s (deliver (.buffer ((mixes n s).map quantSample)) (sampleSteps n s))
  | faulted (r : FaultRecord) (h : faultCode r ≤ 4) : Effect s (takeFault r s)
  | exhausted (n k : Nat) (hk : k ≤ n) (h : exceedsCapacity n s.bufCapacity = true) :
      Effect s (takeFault (.resourceExhausted n) (sampleSteps k (takeDraw s)))

theorem renderCount_effect (n : Nat) (s : State) : Effect s (renderCount n s) := by
  cases h : exceedsCapacity n s.bufCapacity
  · rw [renderCount_of_fits h]
    exact .rendered n h
  · rw [renderCount_of_exceeds h]
    obtain ⟨k, hk, e⟩ := exhaust_eq n s
    rw [e]
    exact .exhausted n k hk h

/-- Everything an abstract command can do. -/
theorem exec_effect {i : Instr} {s t : State} (h : exec i s = .next t) : s.faulted = false ∧ Effect s t := by
  cases i with
  | wrfreq ch v =>
    obtain ⟨hl, h⟩ := whileLive_eq_next.1 h
    refine ⟨hl, ?_⟩
    split at h
    · cases h
      exact .faulted _ (by simp [faultCode])
    · split at h <;> cases h
      · exact .faulted _ (by simp [faultCode])
      · exact .wroteFreq _ _
  | wrctrl ch v =>
    obtain ⟨hl, h⟩ := whileLive_eq_next.1 h
    refine ⟨hl, ?_⟩
    split at h
    · cases h
      exact .faulted _ (by simp [faultCode])
    · split at h <;> cases h
      · exact .faulted _ (by simp [faultCode])
      · exact .wroteCtrl _ _
  | step =>
    obtain ⟨hl, -⟩ := whileLive_eq_next.1 h
    rw [exec_step hl] at h
    cases h
    exact ⟨hl, .stepped⟩
  | render n =>
    obtain ⟨hl, h⟩ := whileLive_eq_next.1 h
    refine ⟨hl, ?_⟩
    split at h <;> cases h
    · exact .faulted _ (by simp [faultCode])
    · exact renderCount_effect _ _

/-- Everything a command of the host can do, at whichever level it was issued. -/
theorem serve_effect {cmd : Command} {s t : State} (h : serve cmd s = .next t) : s.faulted = false ∧ Effect s t := by
  cases cmd with
  | word w =>
    simp only [serve, serveWord] at h
    split at h
    · exact exec_effect h
    · obtain ⟨hl, h⟩ := whileLive_eq_next.1 h
      cases h
      exact ⟨hl, .faulted _ (by simp [faultCode])⟩
  | call i => exact exec_effect h
  | renderSec d =>
    obtain ⟨hl, h⟩ := whileLive_eq_next.1 h
    split at h
    · cases h
      exact ⟨hl, .faulted _ (by simp [faultCode])⟩
    · exact exec_effect (i := .render _) h

/-- Everything a step can do: nothing, when no command waits; else the effect of the oldest command. -/
theorem step_effect {s t : State} (h : step s = .next t) :
    s.faulted = false ∧ ((s.port = [] ∧ t = s) ∨
      ∃ cmd rest, s.port = cmd :: rest ∧ serve cmd (setPort rest s) = .next t ∧ Effect (setPort rest s) t) := by
  unfold step serveNext at h
  split at h
  · obtain ⟨hl, h⟩ := whileLive_eq_next.1 h
    cases h
    exact ⟨hl, .inl ⟨‹_›, rfl⟩⟩
  · obtain ⟨hl, he⟩ := serve_effect h
    exact ⟨hl, .inr ⟨_, _, ‹_›, h, he⟩⟩

/-- A faulted engine executes no abstract command (R158). -/
theorem exec_of_faulted {s : State} (h : s.faulted = true) (i : Instr) : exec i s = .fault .engineFaulted := by
  cases i <;> exact whileLive_of_faulted h _

/-- A faulted engine executes no command (R158). -/
theorem serve_of_faulted {s : State} (h : s.faulted = true) (cmd : Command) : serve cmd s = .fault .engineFaulted := by
  cases cmd with
  | word w =>
    simp only [serve, serveWord]
    split
    · exact exec_of_faulted h _
    · exact whileLive_of_faulted h _
  | call i => exact exec_of_faulted h i
  | renderSec d => exact whileLive_of_faulted h _

/-! ### Lists of commands -/

@[simp] theorem serveAll_nil (s : State) : serveAll [] s = .next s := rfl

theorem serveAll_cons_next {cmd : Command} {rest : List Command} {s t : State} (h : serve cmd s = .next t) :
    serveAll (cmd :: rest) s = serveAll rest t := by simp [serveAll, h]

@[simp] theorem serve_call (i : Instr) (s : State) : serve (.call i) s = exec i s := rfl

theorem serveAll_call_next {i : Instr} {rest : List Command} {s t : State} (h : exec i s = .next t) :
    serveAll (.call i :: rest) s = serveAll rest t := serveAll_cons_next h

theorem serveAll_append {a b : List Command} {s t : State} (h : serveAll a s = .next t) :
    serveAll (a ++ b) s = serveAll b t := by
  induction a generalizing s with
  | nil =>
    cases h
    rfl
  | cons cmd rest ih =>
    simp only [serveAll] at h
    split at h
    · rw [List.cons_append, serveAll_cons_next ‹_›]
      exact ih h
    · cases h
    · cases h

/-- `k` STEP commands of a live engine: the state of `k` sample steps, and one mix each (R118). -/
theorem serveAll_stepCommands (k : Nat) {s : State} (h : s.faulted = false) :
    serveAll (stepCommands k) s =
      .next (withHost s.port (s.results ++ (mixes k s).map .mix) s.draws (sampleSteps k s)) := by
  induction k generalizing s with
  | zero =>
    rw [mixes, List.map_nil, List.append_nil]
    rfl
  | succ k ih =>
    have e : serve (.call .step) s = .next (deliver (.mix (stepMix s)) (sampleStep s).1) := exec_step h
    have hd : deliver (.mix (stepMix s)) (sampleStep s).1 =
        withHost s.port (s.results ++ [.mix (stepMix s)]) s.draws (sampleStep s).1 := by
      rw [show s.port = (sampleStep s).1.port by simp, show s.draws = (sampleStep s).1.draws by simp,
        show s.results = (sampleStep s).1.results by simp]
      rfl
    have hl : (withHost s.port (s.results ++ [.mix (stepMix s)]) s.draws (sampleStep s).1).faulted = false := by
      show (sampleStep s).1.faulted = false
      simpa using h
    rw [show stepCommands (k + 1) = .call .step :: stepCommands k from List.replicate_succ,
      serveAll_cons_next e, hd, ih hl, sampleSteps_withHost, mixes_withHost, sampleSteps_succ, mixes,
      List.map_cons]
    congr 1
    show withHost _ ((s.results ++ [.mix (stepMix s)]) ++ _) _ _ = _
    rw [List.append_assoc]
    rfl

end Sys2Proof.Machine
end

