-- ==== Sys2Proof/Tests/Slice0.lean ====
section
/-!
SUPPORT. Tests/Slice0.lean: the model's own tests. Expected values come from spec/95_test_vectors.md (vector names in the comments) or
from the spec's encoding rules by hand; then one witness per obligation, showing that its hypotheses can be met, with a value for
each clause at the ends of its range.
-/

namespace Sys2Proof.Tests

open Sys2Proof.Machine

/-! ### Well-formedness: an ill-formed term for each check -/

theorem test_wf_channel : (Instr.wrfreq 4 0).wellFormed = false ∧ (Instr.wrfreq (-1) 0).wellFormed = false ∧
    (Instr.wrctrl 4 0).wellFormed = false ∧ (Instr.wrfreq 3 0).wellFormed = true := by decide

theorem test_wf_imm24 : (Instr.wrfreq 0 16777216).wellFormed = false ∧ (Instr.wrfreq 0 (-1)).wellFormed = false ∧
    (Instr.render 16777216).wellFormed = false ∧ (Instr.render (-1)).wellFormed = false ∧
    (Instr.render 16777215).wellFormed = true := by decide

theorem test_wf_control : (Instr.wrctrl 0 256).wellFormed = false ∧ (Instr.wrctrl 0 (-1)).wellFormed = false ∧
    (Instr.wrctrl 0 255).wellFormed = true := by decide

theorem test_legal : (Instr.wrfreq 0 16777216).legal = true ∧ (Instr.wrfreq 0 (-1)).legal = false ∧
    (Instr.wrctrl 0 256).legal = false ∧ (Instr.render (-1)).legal = false ∧ Instr.step.legal = true := by decide

/-! ### Decoding: words written out field by field from 30_encoding section 2 (op, ch, rsv, imm) -/

-- E11
theorem test_decode_wrfreq : decode 0b0001_10_00_000000000000001111101000#32 = .ok (.wrfreq 2 1000) := by decide

-- E2
theorem test_decode_wrfreq_max : decode 0b0001_11_00_111111111111111111111111#32 = .ok (.wrfreq 3 16777215) := by decide

-- E5
theorem test_decode_wrctrl : decode 0b0010_11_00_0000000000000000_10001111#32 = .ok (.wrctrl 3 0x8F) := by decide

-- E12: bit 4 alone is legal
theorem test_decode_wrctrl_bit4 : decode 0b0010_01_00_0000000000000000_00010000#32 = .ok (.wrctrl 1 0x10) := by decide

-- E7
theorem test_decode_step : decode 0b0011_00_00_000000000000000000000000#32 = .ok .step := by decide

-- E23
theorem test_decode_render : decode 0b0100_00_00_000000000000000000010000#32 = .ok (.render 16) := by decide

-- E13 to E17 and E19 to E22
theorem test_decode_illegal :
    decode 0x00000000#32 = .error .illegalOpcode ∧ decode 0xFFFFFFFF#32 = .error .reservedNotZero ∧
    decode 0x11000032#32 = .error .reservedNotZero ∧ decode 0x12000032#32 = .error .reservedNotZero ∧
    decode 0x20000100#32 = .error .controlTooWide ∧ decode 0x34000000#32 = .error .channelNotZero ∧
    decode 0x30000001#32 = .error .immediateNotZero ∧ decode 0x44000010#32 = .error .channelNotZero ∧
    decode 0x50000000#32 = .error .illegalOpcode := by decide

-- E1 to E10
theorem test_encode :
    encode (.wrfreq 0 50) = some 0x10000032#32 ∧ encode (.wrfreq 1 0) = some 0x14000000#32 ∧
    encode (.wrctrl 0 0x0F) = some 0x2000000F#32 ∧ encode (.wrctrl 2 0xFF) = some 0x280000FF#32 ∧
    encode .step = some 0x30000000#32 ∧ encode (.render 2205) = some 0x4000089D#32 ∧
    encode (.render 16777215) = some 0x40FFFFFF#32 ∧ encode (.wrfreq 0 16777216) = none := by decide

theorem test_decodeTableWord : decodeTableWord 32 0x180003E8 = some (.wrfreq 2 1000) ∧
    decodeTableWord 32 0x50000000 = none := by decide

/-! ### Small states -/

/-- A fresh instance with four dividers, four control bytes and four phases set. -/
def engineWith (clockRate sampleRate : Nat) (f : Vector Nat 4) (b : Vector Byte 4) (p : Vector Rat 4) : State :=
  { State.fresh clockRate sampleRate none with frequencyDivider := f, controlByte := b, channelPhase := p }

/-- The registers of vector P4. -/
def p4 : State := engineWith 4 8 #v[1, 0, 3, 0] #v[0x0F#8, 0x2A#8, 0x13#8, 0xE5#8] #v[0, 0, 0, 0]

/-- All four channels at volume 15 and increment 1/2, phases 1/2 (vector S3 after one STEP). -/
def s3 : State := engineWith 2 4 #v[0, 0, 0, 0] #v[0x0F#8, 0x0F#8, 0x0F#8, 0x0F#8] #v[1 / 2, 1 / 2, 1 / 2, 1 / 2]

/-- Increment 1 in every channel (vector F5). -/
def inc1 : State := State.fresh 1 1 none

/-- A component of the next state; `none` where there is no next state. -/
def after {α : Type} (f : State → α) : Host.Outcome State Fault Refusal → Option α
  | .next t => some (f t)
  | _ => none

/-- The result of the last command. -/
def lastResult (o : Host.Outcome State Fault Refusal) : Option Result := (after (fun t => t.results.getLast?) o).join

/-! ### One command on a small state -/

-- W5: the phase is not touched
theorem test_wrfreq : after (fun t => (t.frequencyDivider, t.channelPhase, t.results))
    (exec (.wrfreq 0 99) (engineWith 4 8 #v[1, 2, 3, 4] #v[0, 0, 0, 0] #v[3 / 4, 0, 0, 0])) =
    some (#v[99, 2, 3, 4], #v[3 / 4, 0, 0, 0], [.nothing]) := by decide +kernel

-- W8, W10
theorem test_register_faults :
    after (fun t => (t.faulted, t.frequencyDivider, t.results)) (exec (.wrfreq 4 1) State.reset) =
      some (true, #v[0, 0, 0, 0], [.fault (.channelRange (.wrfreq 4 1))]) ∧
    lastResult (exec (.wrctrl 7 300) State.reset) = some (.fault (.channelRange (.wrctrl 7 300))) ∧
    lastResult (exec (.wrctrl 0 256) State.reset) = some (.fault (.valueRange (.wrctrl 0 256))) := by decide +kernel

-- W3 and W4: the byte is replaced whole
theorem test_wrctrl : after (·.controlByte)
    (exec (.wrctrl 1 0x05) (engineWith 4 8 #v[1, 2, 3, 4] #v[0, 0x8F#8, 0, 0] #v[0, 0, 0, 0])) =
      some #v[0, 0x05#8, 0, 0] ∧
    after (·.controlByte) (exec (.wrctrl 2 0xFF) State.reset) = some #v[0, 0, 0xFF#8, 0] := by decide +kernel

-- S2, second STEP: a sum of exactly 1 wraps to 0
theorem test_step_exact_hit : after (fun t => (phase t 0, out t 0, t.results)) (exec .step s3) =
    some (0, some .plus, [.mix 60]) := by decide +kernel

-- H1, first STEP after the writes: the phase has run away and is lowered once
theorem test_step_runaway : after (fun t => (phase t 0, out t 0, t.results))
    (exec .step { State.reset with
      frequencyDivider := #v[50, 0, 0, 0], controlByte := #v[0x0F#8, 0, 0, 0],
      channelPhase := #v[17459 / 147, 17459 / 147, 17459 / 147, 17459 / 147] }) =
    some (380948 / 3213, some .plus, [.mix 15]) := by decide +kernel

-- S4, STEP 4: two channels wrap, one does not
theorem test_mix : after (·.results) (exec .step (engineWith 1790000 44100 #v[99, 199, 399, 0] #v[0x0F#8, 0x08#8, 0x04#8, 0]
    #v[275 / 441, 358 / 441, 179 / 441, 0])) = some [.mix 19] := by decide +kernel

-- P4: tone and noise channels, the shared register, the ignored bit 4
theorem test_render_p4 : after (fun t => (t.channelOutput, t.lfsrState, t.channelPhase)) (exec (.render 8) p4) =
    some (#v[some .plus, some .minus, some .plus, some .minus], 0x07000#17, #v[0, 0, 0, 0]) := by decide +kernel

-- P4, the bytes of the buffer
theorem test_render_bytes : pcmBytes (renderLoop 8 p4 []).2 =
    [0xCD, 0xFC, 0xCD, 0xFC, 0xCD, 0xFC, 0xCD, 0x1C, 0xCD, 0xFC, 0xCD, 0xFC, 0xCD, 0xFC, 0x33, 0x03] := by decide +kernel

-- NS1, NS3, NS4, NS6, NS7, NS10
theorem test_nstep : (noiseBit 0x1FFFF#17, noiseNext 0x1FFFF#17) = (true, 0x1DFFF#17) ∧
    (noiseBit 0x1C000#17, noiseNext 0x1C000#17) = (false, 0x0E000#17) ∧
    (noiseBit 0x00007#17, noiseNext 0x00007#17) = (true, 0x12003#17) ∧
    (noiseBit 0x00002#17, noiseNext 0x00002#17) = (false, 0x00001#17) ∧
    (noiseBit 0x10000#17, noiseNext 0x10000#17) = (false, 0x08000#17) ∧
    (noiseBit 0x1BFFF#17, noiseNext 0x1BFFF#17) = (true, 0x1FFFF#17) := by decide

-- NS13
theorem test_nstep_64 : noiseNext^[64] 0x1FFFF#17 = 0x1BFC1#17 := by decide +kernel

-- Q2 to Q4, Q8, Q10 to Q13
theorem test_quant : [1, -1, 9, 26, 24, 59, 60, -60].map quant = [273, -273, 2458, 7100, 6553, 16110, 16384, -16384] := by
  decide +kernel

-- F1, F2: an illegal word faults and is recorded; then nothing runs
theorem test_illegal_word : lastResult (serve (.word 0x50000000#32) State.reset) =
      some (.fault (.illegalCommand 0x50000000#32)) ∧
    serveAll [.word 0x50000000#32, .word 0x10000032#32] State.reset = .fault .engineFaulted := by
  constructor
  · decide +kernel
  · rfl

-- B6, B7 at a capacity of 3
theorem test_capacity : after (·.faulted) (exec (.render 4) (State.fresh 4 8 (some 3))) = some true ∧
    lastResult (exec (.render 3) (State.fresh 4 8 (some 3))) = some (.buffer [0, 0, 0]) := by
  constructor
  · rfl
  · decide +kernel

-- B8, B9, and T5 with d = 0.07 and d = 1/44101
theorem test_renderSec :
    lastResult (serve (.renderSec (-1 / 100)) State.reset) = some (.fault (.negativeDuration (.renderSec (-1 / 100)))) ∧
    lastResult (serve (.renderSec 0) State.reset) = some (.buffer []) ∧
    sampleCount 44100 (7 / 100) = 3087 ∧ sampleCount 44100 (1 / 44101) = 0 := by decide +kernel

-- F4, F5
theorem test_construct : construct (some 1790000) (some 0) none = .fault (.noInstance .constructRange) ∧ faultCode .constructRange = 6 ∧
    construct (some 1) (some 1) none = .next inc1 ∧ construct none none none = .next State.reset := ⟨rfl, rfl, rfl, rfl⟩

-- S8 (STEP straight after reset) and E3 (WRFREQ 1, 0): the next step runs the word that withFetchWord placed
theorem test_withFetchWord :
    after (·.results) (step (State.reset.withFetchWord 32 0x30000000)) = some [.mix 0] ∧
    after (·.results) (step (State.reset.withFetchWord 32 0x14000000)) = some [.nothing] := by decide +kernel

/-! ### Witnesses: the hypotheses of each obligation can be met -/

/-- The reset state with commands waiting on the port. -/
def waiting (cmds : List Command) : State := setPort cmds State.reset

theorem test_witness_DecodeEncodeAgree : (Instr.wrfreq 0 0).wellFormed = true ∧ (Instr.wrfreq 3 16777215).wellFormed = true ∧
    (Instr.wrctrl 3 255).wellFormed = true ∧ Instr.step.wellFormed = true ∧ (Instr.render 16777215).wellFormed = true ∧
    decode 0x40FFFFFF#32 = .ok (.render 16777215) := by decide

theorem test_witness_IllegalWordsFault : Live State.reset ∧ ∃ e, decode 0x50000000#32 = .error e := ⟨rfl, _, rfl⟩

theorem test_witness_WrfreqWords : (0 < 4 ∧ 0 < 2 ^ 24) ∧ (3 < 4 ∧ 16777215 < 2 ^ 24) ∧ 2 ^ 24 ≤ 16777216 ∧
    Live State.reset := by decide

theorem test_witness_WrctrlWords : (0 < 4 ∧ 0 < 256) ∧ (3 < 4 ∧ 255 < 256) ∧
    (0x20000100#32).toNat / 2 ^ 28 = 2 ∧ (0x20000100#32).toNat / 2 ^ 8 % 2 ^ 16 ≠ 0 ∧
    (0x20FFFF00#32).toNat / 2 ^ 28 = 2 ∧ (0x20FFFF00#32).toNat / 2 ^ 8 % 2 ^ 16 ≠ 0 := by decide

theorem test_witness_StepAndRenderWords : 0 < 2 ^ 24 ∧ 16777215 < 2 ^ 24 := by decide

theorem test_witness_StateAfterConstruct : (1 : Int) ≤ (none : Option Int).getD 1790000 ∧
    (1 : Int) ≤ (none : Option Int).getD 44100 ∧ (1 : Int) ≤ (some (1 : Int)).getD 1790000 ∧
    (1 : Int) ≤ (some (1 : Int)).getD 44100 := by decide

theorem test_witness_ConstructRangeFault : ((0 : Int) < 1 ∨ (1 : Int) < 1) ∧ ((1 : Int) < 1 ∨ (0 : Int) < 1) ∧
    (1 : Int) ≤ 1 := by decide

theorem test_witness_InstancesAreIndependent :
    (∃ all, addInstance (some 1) none none [State.reset] = .next all) ∧
    ∃ all, stepInstance 1 [State.reset, waiting [.call .step]] = some (.next all) := ⟨⟨_, rfl⟩, _, rfl⟩

theorem test_witness_ConstructedStatesMeetInvariant : construct (some 1) (some 1) none = .next inc1 := rfl

theorem p4_inv : p4.Inv := by decide +kernel

theorem test_witness_StepKeepsInvariant : (setPort [.call .step] p4).Inv ∧
    ∃ t, step (setPort [.call .step] p4) = .next t := ⟨p4_inv, _, rfl⟩

theorem reset_reachable : Reachable State.reset := .constructed none none none rfl

theorem test_witness_ReachableStatesMeetInvariant :
    ∃ s, Reachable s ∧ ∃ M, Result.mix M ∈ s.results :=
  ⟨_, .stepped (.issued (.call .step) reset_reachable) rfl, _, List.mem_append_right _ (List.mem_singleton.2 rfl)⟩

theorem test_witness_WrfreqResult : Live State.reset ∧ (0 ≤ (0 : Int) ∧ (0 : Int) < 4 ∧ 0 ≤ (0 : Int)) ∧
    0 ≤ (3 : Int) ∧ (3 : Int) < 4 ∧ 0 ≤ (16777216 : Int) := by decide

theorem test_witness_WrctrlResult : Live State.reset ∧ (0 ≤ (0 : Int) ∧ (0 : Int) < 4 ∧ 0 ≤ (0 : Int) ∧ (0 : Int) < 256) ∧
    0 ≤ (3 : Int) ∧ (3 : Int) < 4 ∧ 0 ≤ (255 : Int) ∧ (255 : Int) < 256 := by decide

theorem test_witness_RegisterWriteFaults : Live State.reset ∧ ¬(0 ≤ (4 : Int) ∧ (4 : Int) < 4) ∧
    ¬(0 ≤ (-1 : Int) ∧ (-1 : Int) < 4) ∧ (0 ≤ (3 : Int) ∧ (3 : Int) < 4) ∧ (-1 : Int) < 0 ∧
    ¬(0 ≤ (256 : Int) ∧ (256 : Int) < 256) ∧ ¬(0 ≤ (-1 : Int) ∧ (-1 : Int) < 256) := by decide

theorem test_witness_RegisterNumbersNameRegisters : Live State.reset ∧ RegisterValue 0 0 ∧ RegisterValue 6 16777216 ∧
    RegisterValue 7 255 ∧ (6 : Fin 8).val % 2 = 0 ∧ (7 : Fin 8).val % 2 = 1 :=
  ⟨rfl, .inl rfl, .inl rfl, .inr (by decide), rfl, rfl⟩

theorem test_witness_RegisterWritesCommute : Live State.reset ∧ RegisterValue 0 7 ∧ RegisterValue 1 1 ∧
    (0 : Fin 8) ≠ 1 ∧ RegisterValue 0 9 := ⟨rfl, .inl rfl, .inr (by decide), by decide, .inl rfl⟩

theorem test_witness_WriteSeenByNextSample : Live State.reset ∧ isNoise 0x1F#8 = false ∧ isNoise 0x20#8 = true := by decide

theorem test_witness_LfsrMaximalPeriod : (0 < 1 ∧ 1 < 131071) ∧ (0 < 131070 ∧ 131070 < 131071) ∧ (1#17 : Lfsr) ≠ 0#17 ∧
    noiseNext^[0] 0x1FFFF#17 = 0x1FFFF#17 := by decide

theorem test_witness_SharedNoiseSequence : Live p4 ∧ isNoise (ctrl p4 1) = true ∧ isNoise (ctrl p4 3) = true ∧
    (1 : Chan) < 3 ∧ noiseCount State.reset = 0 := by decide +kernel

theorem test_witness_ZeroLfsrIsAbsorbing : Live (writeLfsr 0#17 p4) ∧ (writeLfsr 0#17 p4).lfsrState = 0#17 ∧
    isNoise (ctrl (writeLfsr 0#17 p4) 1) = true ∧ Reachable State.reset := ⟨rfl, rfl, by decide +kernel, reset_reachable⟩

theorem test_witness_NoiseChannelFollowsLfsr : Live (writeCtrl 0 0x8F#8 State.reset) ∧
    Fits 32 (writeCtrl 0 0x8F#8 State.reset) ∧ isNoise (ctrl (writeCtrl 0 0x8F#8 State.reset) 0) = true ∧
    ∀ d : Chan, d ≠ 0 → isNoise (ctrl (writeCtrl 0 0x8F#8 State.reset) d) = false ∧
      volume (ctrl (writeCtrl 0 0x8F#8 State.reset) d) = 0 := by decide +kernel

theorem test_witness_StepResult : Live State.reset ∧ Live p4 := by decide

theorem test_witness_PhaseUpdate : Live s3 ∧ phase s3 0 + ((s3.clockRate : Rat) / (divisor s3 0 : Rat)) / (s3.sampleRate : Rat) = 1 ∧
    ToneMode s3 0 := by decide +kernel

theorem test_witness_MixNumeratorLaws : Live s3 ∧ (∀ c : Chan, volume (ctrl State.reset c) = 0) ∧
    mixValue (stepMix s3) = 1 ∧ mixValue (stepMix (engineWith 2 4 #v[0, 0, 0, 0]
      #v[0x0F#8, 0x0F#8, 0x0F#8, 0x0F#8] #v[0, 0, 0, 0])) = -1 := by decide +kernel

theorem test_witness_StepAloneAndInRender : Live State.reset ∧ Fits 1 State.reset ∧ Fits 1 (State.fresh 4 8 (some 1)) := by
  decide

theorem test_witness_EveryStepChangesEveryPhase : p4.Inv ∧ ∃ t, exec .step p4 = .next t := ⟨p4_inv, _, rfl⟩

theorem test_witness_StepChangesPhaseUnlessIncrementOne : inc1.Inv ∧ (∃ t, exec .step inc1 = .next t) ∧
    phaseIncrement inc1 0 = 1 ∧ 1 ≤ phaseSum inc1 0 := ⟨by decide +kernel, ⟨_, rfl⟩, by decide +kernel, by decide +kernel⟩

theorem test_witness_VolumeNeverAffectsGenerator : Live p4 ∧
    { p4 with controlByte := (writeCtrl 0 0x00#8 p4).controlByte } = writeCtrl 0 0x00#8 p4 ∧
    (∀ c : Chan, isNoise (ctrl p4 c) = isNoise (ctrl (writeCtrl 0 0x00#8 p4) c)) ∧
    volume (ctrl (writeCtrl 0 0x00#8 p4) 0) = 0 := ⟨rfl, rfl, by decide +kernel, by decide +kernel⟩

theorem test_witness_FreshEngineIsSilent :
    construct (some (2 : Nat)) (some (1 : Nat)) (some 3) = .next (State.fresh 2 1 (some 3)) ∧
    Fits (3 : Nat) (State.fresh 2 1 (some 3)) ∧ 1 < 2 := ⟨rfl, rfl, by decide⟩

theorem test_witness_ToneClosedForm : (Live inc1 ∧ ToneMode inc1 0 ∧ InRange inc1 0) ∧ Live s3 ∧ ToneMode s3 0 ∧
    InRange s3 0 := by decide +kernel

theorem test_witness_WrapSpacing : (Live s3 ∧ ToneMode s3 0 ∧ InRange s3 0 ∧ 0 < phaseIncrement s3 0 ∧ 1 ≤ 2) ∧
    (∃ t, serveAll (stepCommands 1) s3 = .next t ∧ out t 0 = some .plus) ∧
    (∀ j, 2 ≤ j → j ≤ 2 → ∃ t, serveAll (stepCommands j) s3 = .next t ∧ out t 0 = some .minus) ∧
    ∃ t, serveAll (stepCommands 3) s3 = .next t ∧ out t 0 = some .plus := by
  refine ⟨by decide +kernel, ⟨_, rfl, by decide +kernel⟩, fun j h1 h2 => ?_, _, rfl, by decide +kernel⟩
  rw [show j = 2 by omega]
  exact ⟨_, rfl, by decide +kernel⟩

theorem test_witness_ToneExactPeriod : Live p4 ∧ ToneMode p4 2 ∧ InRange p4 2 := by decide +kernel

theorem test_witness_RunawayTone : (Live State.reset ∧ 0 ≤ phase State.reset 0 ∧ 1 < phaseIncrement State.reset 0) ∧
    (State.reset.clockRate = 1790000 ∧ State.reset.sampleRate = 44100 ∧ freq State.reset 0 = 0) ∧
    (Live s3 ∧ 1 ≤ phaseSum s3 0) ∧
    Live (writePhase 0 1 inc1) ∧ phaseIncrement (writePhase 0 1 inc1) 0 = 1 ∧ 1 ≤ phase (writePhase 0 1 inc1) 0 ∧
    ToneMode (writePhase 0 1 inc1) 0 := by decide +kernel

theorem test_witness_RunawayRecoveryTime :
    (Live (writePhase 0 3 s3) ∧ ToneMode (writePhase 0 3 s3) 0 ∧ 0 ≤ phase (writePhase 0 3 s3) 0 ∧
      phaseIncrement (writePhase 0 3 s3) 0 < 1 ∧
      ((7 : Nat) : Int) = ⌊(phase (writePhase 0 3 s3) 0 + phaseIncrement (writePhase 0 3 s3) 0 - 1) /
        (1 - phaseIncrement (writePhase 0 3 s3) 0)⌋ + 2 ∧ 1 ≤ 6 ∧ 6 < 7) ∧
    Live p4 ∧ ToneMode p4 0 ∧ 0 ≤ phase p4 0 ∧ phaseIncrement p4 0 < 1 ∧
      ((1 : Nat) : Int) = ⌊(phase p4 0 + phaseIncrement p4 0 - 1) / (1 - phaseIncrement p4 0)⌋ + 2 := by decide +kernel

theorem test_witness_PhaseRange : Reachable State.reset ∧ (Live inc1 ∧ InRange inc1 0) ∧ 1 ≤ inc1.sampleRate ∧
    (Live State.reset ∧ 0 ≤ phase State.reset 0 ∧ 1 < phaseIncrement State.reset 0 ∧ ToneMode State.reset 0) ∧
    State.reset.clockRate = 1790000 ∧ State.reset.sampleRate = 44100 := ⟨reset_reachable, by decide +kernel⟩

theorem test_witness_RenderResult : (Live State.reset ∧ Fits (0 : Nat) State.reset) ∧
    Live (State.fresh 4 8 (some 3)) ∧ Fits (3 : Nat) (State.fresh 4 8 (some 3)) := by decide

theorem test_witness_RenderSplit : Live (State.fresh 4 8 (some 6)) ∧
    Fits (([2, 4] : List Nat).sum : Nat) (State.fresh 4 8 (some 6)) := by decide

theorem test_witness_RenderExhausted :
    (Live (State.fresh 4 8 (some 1000)) ∧ (State.fresh 4 8 (some 1000)).bufCapacity = some 1000 ∧ 1000 < 1001) ∧
    State.reset.bufCapacity = none ∧ ∃ t, serve (.word 0x4000089D#32) State.reset = .next t := ⟨by decide, rfl, _, rfl⟩

theorem test_witness_DurationToCount : (Live State.reset ∧ (0 : Rat) ≤ 0 ∧
      Fits ⌊(State.reset.sampleRate : Rat) * 0⌋ State.reset ∧ (0 : Rat) ≤ 1 / 20 ∧
      Fits ⌊(State.reset.sampleRate : Rat) * (1 / 20)⌋ State.reset) ∧ State.reset.sampleRate = 44100 ∧
    (-1 / 100 : Rat) < 0 ∧ (-1 : Int) < 0 ∧ decode 0x40000000#32 = .ok (.render 0) := by decide +kernel

theorem test_witness_RenderSecExpansion : (-1 / 100 : Rat) < 0 ∧ (Live State.reset ∧ State.reset.bufCapacity = none ∧
      (0 : Rat) ≤ 1 / 20 ∧ ⌊(State.reset.sampleRate : Rat) * (1 / 20)⌋ ≤ 16777215 ∧
      ⌊(State.reset.sampleRate : Rat) * (16777215 / 44100)⌋ = 16777215 ∧
      (0 : Rat) ≤ 16777216 / 44100 ∧ ¬⌊(State.reset.sampleRate : Rat) * (16777216 / 44100)⌋ ≤ 16777215) ∧
    1 ≤ 44100 ∧ (0 : Rat) ≤ 1 / 44101 ∧ (1 / 44101 : Rat) < 1 / (44100 : Nat) := by decide +kernel

theorem test_witness_QuantIntegerForm : (59 : Int) < 60 ∧ (-60 : Int) ≤ 60 ∧ (60 : Int) ≤ 60 ∧ (-60 : Int) ≤ -60 := by decide

theorem test_witness_QuantIsNearest : (60 : Int) % 120 = 60 ∧ (-60 : Int) % 120 = 60 := by decide

theorem test_witness_BufferBytes : ([0x1000#16] : List Sample)[0]? = some 0x1000#16 ∧
    ((-32768 : Int) ≤ -32768 ∧ (32767 : Int) ≤ 32767) ∧
    ∃ t, exec (.render 2) s3 = .next t ∧ t.results = s3.results ++ [.buffer [0x4000#16, 0xC000#16]] ∧
      (0xC000#16).toInt ≠ 16384 := ⟨rfl, by decide, _, rfl, by decide +kernel, by decide⟩

theorem test_witness_FaultedEngineStops : ({ p4 with faulted := true }).faulted = true ∧
    serveAll [] { p4 with faulted := true } = .next { p4 with faulted := true } := ⟨rfl, rfl⟩

theorem test_witness_FaultEntry :
    (∃ t, serve (.word 0x50000000#32) State.reset = .next t ∧
      t.results = State.reset.results ++ [.fault (.illegalCommand 0x50000000#32)] ∧
      faultCode (.illegalCommand 0x50000000#32) ≤ 4) ∧
    (∃ t, serve (.call (.render 4)) (State.fresh 4 8 (some 3)) = .next t ∧ t.faulted = true) ∧
    ∃ t, serve (.call .step) State.reset = .next t ∧ t.faulted = false := by
  refine ⟨⟨_, rfl, rfl, by decide⟩, ⟨_, rfl, rfl⟩, _, rfl, ?_⟩
  decide +kernel

theorem test_witness_LegalCommandsNeverFault : Live (State.fresh 4 8 (some 3)) ∧
    ∀ i ∈ [.wrfreq 3 16777216, .wrctrl 3 255, .step, .render 3], Executable i (State.fresh 4 8 (some 3)) := by
  refine ⟨rfl, ?_⟩
  simp only [List.mem_cons, List.not_mem_nil, or_false, forall_eq_or_imp, forall_eq]
  exact ⟨⟨rfl, trivial⟩, ⟨rfl, trivial⟩, ⟨rfl, trivial⟩, rfl, rfl⟩

theorem test_witness_WhoWritesWhat :
    (∃ t, exec (.wrfreq 3 7) State.reset = .next t ∧ freq t 3 ≠ freq State.reset 3) ∧
    (∃ t, exec (.wrctrl 3 7) State.reset = .next t ∧ ctrl t 3 ≠ ctrl State.reset 3) ∧
    ∃ t, exec .step p4 = .next t ∧ t.lfsrState ≠ p4.lfsrState := by
  exact ⟨⟨_, rfl, by decide +kernel⟩, ⟨_, rfl, by decide +kernel⟩, _, rfl, by decide +kernel⟩

theorem test_witness_ReturnedResultsNeverChange : (∃ t, step State.reset = .next t) ∧
    ∃ t, step (waiting [.call .step]) = .next t := ⟨⟨_, rfl⟩, _, rfl⟩

/-- P4 with bit 4 of one control byte, the NOISE value of another and the last outputs changed. -/
def p4' : State := { p4 with
  controlByte := #v[0x1F#8, 0xCA#8, 0x03#8, 0x25#8],
  channelOutput := #v[some .plus, some .plus, some .minus, some .plus] }

theorem test_witness_UnreadBitsUnobservable : SameSound p4 p4' ∧ p4 ≠ p4' ∧
    (∃ t, serveAll [.call .step] p4 = .next t) ∧
    ∃ r, serveAll [.call (.wrctrl 0 256), .call .step] p4 = .fault r := by
  refine ⟨⟨rfl, ?_⟩, by decide +kernel, ⟨_, rfl⟩, _, rfl⟩
  simp only [SameControl]
  decide +kernel

theorem test_witness_StepRunsDecodedInstruction :
    ((waiting [.word 0x30000000#32]).port = .word 0x30000000#32 :: [] ∧ decode 0x30000000#32 = .ok .step) ∧
    (waiting [.call .step]).port = .call .step :: [] ∧ (waiting [.renderSec 0]).port = .renderSec 0 :: [] ∧
    Live State.reset ∧ State.reset.port = [] := ⟨⟨rfl, by decide⟩, rfl, rfl, rfl, rfl⟩

theorem test_witness_CommandsRunInOrder :
    (waiting [.call (.wrfreq 0 50), .call .step, .call (.render 3)]).port =
      [.call (.wrfreq 0 50), .call .step] ++ [.call (.render 3)] ∧
    ∃ t, serveAll [.call (.wrfreq 0 50), .call .step]
      { waiting [.call (.wrfreq 0 50), .call .step, .call (.render 3)] with port := [.call (.render 3)] } = .next t :=
  ⟨rfl, _, rfl⟩

end Sys2Proof.Tests
end

section
/-!
PROOFS. The state CONSTRUCT leaves (10_state R41): what each read of a fresh instance returns, and O7.
-/

namespace Sys2Proof.Machine

/-! ### Reads of a fresh instance -/

section Fresh

variable (clockRate sampleRate : Nat) (cap : Option Nat) (c : Chan)

@[simp] theorem freq_fresh : freq (State.fresh clockRate sampleRate cap) c = 0 := by
  fin_cases c <;> rfl

@[simp] theorem ctrl_fresh : ctrl (State.fresh clockRate sampleRate cap) c = 0#8 := by
  fin_cases c <;> rfl

@[simp] theorem phase_fresh : phase (State.fresh clockRate sampleRate cap) c = 0 := by
  fin_cases c <;> rfl

@[simp] theorem out_fresh : out (State.fresh clockRate sampleRate cap) c = none := by
  fin_cases c <;> rfl

end Fresh

/-! ### CONSTRUCT with parameters in range -/

/-- The defaults are themselves in range, so CONSTRUCT with both arguments omitted is the reset (R180, R181). -/
theorem construct_none_eq_reset : construct none none none = .next State.reset :=
  construct_eq_next.2 ⟨by decide, by decide, rfl⟩

/-- Settles O7: CONSTRUCT in range answers the fresh instance, whose elements are read off one by one; the rates, cut to
naturals, are the parameters themselves because these are at least 1. -/
theorem stateAfterConstruct : Obligations.StateAfterConstruct := by
  unfold Obligations.StateAfterConstruct
  refine ⟨fun cr sr cap hcr hsr => ?_, construct_none_eq_reset⟩
  refine ⟨_, construct_eq_next.2 ⟨hcr, hsr, rfl⟩, ?clock, ?rate, ?channels, rfl, rfl⟩
  case clock => exact Int.toNat_of_nonneg (Int.le_trans Int.one_nonneg hcr)
  case rate => exact Int.toNat_of_nonneg (Int.le_trans Int.one_nonneg hsr)
  case channels => exact fun c => ⟨freq_fresh _ _ _ c, ctrl_fresh _ _ _ c, phase_fresh _ _ _ c, out_fresh _ _ _ c⟩

end Sys2Proof.Machine
end

section
/-!
PROOFS. The words of the four commands (30_encoding R71 to R76): the fields of a word and of an encoded command, the decoder
read off the fields, and O3, O4 and O5.
-/

namespace Sys2Proof

/-! ### The fields of a word -/

section Fields

variable (w w' mask : Word)

theorem opField_toNat : (opField w).toNat = w.toNat / 2 ^ 28 := by
  have := w.isLt
  simp only [opField, BitVec.extractLsb'_toNat, Nat.shiftRight_eq_div_pow]
  omega

theorem chField_toNat : (chField w).toNat = w.toNat / 2 ^ 26 % 4 := by
  simp [chField, Nat.shiftRight_eq_div_pow]

theorem rsvField_toNat : (rsvField w).toNat = w.toNat / 2 ^ 24 % 4 := by
  simp [rsvField, Nat.shiftRight_eq_div_pow]

theorem immField_toNat : (immField w).toNat = w.toNat % 2 ^ 24 := by
  simp [immField]

theorem immHighField_toNat : (immHighField w).toNat = w.toNat / 2 ^ 8 % 2 ^ 16 := by
  simp [immHighField, Nat.shiftRight_eq_div_pow]

theorem immLowField_toNat : (immLowField w).toNat = w.toNat % 256 := by
  simp [immLowField]

/-- The five fields of R71 and R74 partition a word, so they determine it. -/
theorem word_eq_iff_fields : w = w' ↔ opField w = opField w' ∧ chField w = chField w' ∧ rsvField w = rsvField w' ∧
    immHighField w = immHighField w' ∧ immLowField w = immLowField w' := by
  simp only [BitVec.toNat_eq, opField_toNat, chField_toNat, rsvField_toNat, immHighField_toNat, immLowField_toNat]
  omega

/-- `imm` is 0 exactly when both its parts are. -/
theorem immField_eq_zero_iff : immField w = 0#24 ↔ immHighField w = 0#16 ∧ immLowField w = 0#8 := by
  simp only [BitVec.toNat_eq, immField_toNat, immHighField_toNat, immLowField_toNat, BitVec.toNat_ofNat]
  omega

theorem opField_and : opField (w &&& mask) = opField w &&& opField mask := BitVec.extractLsb'_and
theorem chField_and : chField (w &&& mask) = chField w &&& chField mask := BitVec.extractLsb'_and
theorem rsvField_and : rsvField (w &&& mask) = rsvField w &&& rsvField mask := BitVec.extractLsb'_and
theorem immHighField_and : immHighField (w &&& mask) = immHighField w &&& immHighField mask := BitVec.extractLsb'_and
theorem immLowField_and : immLowField (w &&& mask) = immLowField w &&& immLowField mask := BitVec.extractLsb'_and

/-- A mask and match is a mask and match of each field: how the masks of R73 to R76 are read. -/
theorem and_mask_eq_iff_fields : w &&& mask = w' ↔ opField w &&& opField mask = opField w' ∧
    chField w &&& chField mask = chField w' ∧ rsvField w &&& rsvField mask = rsvField w' ∧
    immHighField w &&& immHighField mask = immHighField w' ∧ immLowField w &&& immLowField mask = immLowField w' := by
  rw [word_eq_iff_fields, opField_and, chField_and, rsvField_and, immHighField_and, immLowField_and]

end Fields

/-! ### The masks of R73 to R76: each covers a field wholly or not at all -/

theorem and_eq_left_of_allOnes {n : Nat} (x : BitVec n) {m : BitVec n} (h : m = BitVec.allOnes n) : x &&& m = x := by
  rw [h, BitVec.and_allOnes]

theorem wrfreqMask_iff (w : Word) :
    w &&& 0xF3000000#32 = 0x10000000#32 ↔ rsvField w = 0#2 ∧ opField w = 0x1#4 := by
  rw [and_mask_eq_iff_fields]
  simp [opField, chField, rsvField, immHighField, immLowField, and_eq_left_of_allOnes, and_comm]

theorem wrctrlMask_iff (w : Word) : w &&& 0xF3FFFF00#32 = 0x20000000#32 ↔
    rsvField w = 0#2 ∧ opField w = 0x2#4 ∧ immHighField w = 0#16 := by
  rw [and_mask_eq_iff_fields]
  simp [opField, chField, rsvField, immHighField, immLowField, and_eq_left_of_allOnes, and_left_comm]

theorem stepMask_iff (w : Word) : w &&& 0xFFFFFFFF#32 = 0x30000000#32 ↔
    rsvField w = 0#2 ∧ opField w = 0x3#4 ∧ chField w = 0#2 ∧ immField w = 0#24 := by
  rw [and_mask_eq_iff_fields, immField_eq_zero_iff]
  simp [opField, chField, rsvField, immHighField, immLowField, and_eq_left_of_allOnes, and_left_comm]

theorem renderMask_iff (w : Word) : w &&& 0xFF000000#32 = 0x40000000#32 ↔
    rsvField w = 0#2 ∧ opField w = 0x4#4 ∧ chField w = 0#2 := by
  rw [and_mask_eq_iff_fields]
  simp [opField, chField, rsvField, immHighField, immLowField, and_eq_left_of_allOnes, and_comm, and_assoc]

/-! ### The decoder read off the fields -/

/-- Everything the decoder accepts, by opcode (R81). -/
theorem decode_eq_ok {w : Word} {i : Instr} : decode w = .ok i ↔ rsvField w = 0#2 ∧
    ((opField w = 0x1#4 ∧ i = .wrfreq (chField w).toNat (immField w).toNat) ∨
     (opField w = 0x2#4 ∧ immHighField w = 0#16 ∧ i = .wrctrl (chField w).toNat (immLowField w).toNat) ∨
     (opField w = 0x3#4 ∧ chField w = 0#2 ∧ immField w = 0#24 ∧ i = .step) ∨
     (opField w = 0x4#4 ∧ chField w = 0#2 ∧ i = .render (immField w).toNat)) := by
  by_cases hr : rsvField w = 0#2
  case neg => simp [decode, hr]
  by_cases h1 : opField w = 0x1#4
  · simp [decode, hr, h1, eq_comm]
  by_cases h2 : opField w = 0x2#4
  · by_cases hi : immHighField w = 0#16 <;> simp [decode, hr, h2, hi, eq_comm]
  by_cases h3 : opField w = 0x3#4
  · by_cases hc : chField w = 0#2 <;> by_cases hi : immField w = 0#24 <;> simp [decode, hr, h3, hc, hi, eq_comm]
  by_cases h4 : opField w = 0x4#4
  · by_cases hc : chField w = 0#2 <;> simp [decode, hr, h4, hc, eq_comm]
  simp [decode, hr, h1, h2, h3, h4]

theorem decode_eq_wrfreq {w : Word} {ch v : Int} : decode w = .ok (.wrfreq ch v) ↔
    rsvField w = 0#2 ∧ opField w = 0x1#4 ∧ ch = (chField w).toNat ∧ v = (immField w).toNat := by
  simp [decode_eq_ok]

theorem decode_eq_wrctrl {w : Word} {ch v : Int} : decode w = .ok (.wrctrl ch v) ↔
    rsvField w = 0#2 ∧ opField w = 0x2#4 ∧ immHighField w = 0#16 ∧ ch = (chField w).toNat ∧ v = (immLowField w).toNat := by
  simp [decode_eq_ok]

theorem decode_eq_step {w : Word} : decode w = .ok .step ↔
    rsvField w = 0#2 ∧ opField w = 0x3#4 ∧ chField w = 0#2 ∧ immField w = 0#24 := by
  simp [decode_eq_ok]

theorem decode_eq_render {w : Word} {n : Int} : decode w = .ok (.render n) ↔
    rsvField w = 0#2 ∧ opField w = 0x4#4 ∧ chField w = 0#2 ∧ n = (immField w).toNat := by
  simp [decode_eq_ok]

/-- A WRCTRL word whose immediate is wider than a control byte is illegal, whatever its other fields (R74, R79). -/
theorem decode_error_of_controlTooWide {w : Word} (hop : opField w = 0x2#4) (hi : immHighField w ≠ 0#16) :
    ∃ e, decode w = .error e := by
  cases h : decode w with
  | error e => exact ⟨e, rfl⟩
  | ok i => simp [decode_eq_ok, hop, hi] at h

/-! ### The fields of an encoded command -/

section CommandWord

variable {op ch v : Nat}

/-- The word as R73 to R76 write it, the channel shifted into place. -/
theorem commandWord_eq_shiftLeft (op ch v : Nat) :
    commandWord op ch v = BitVec.ofNat 32 (op * 0x10000000 + (ch <<< 26) + v) := by
  simp [commandWord, Nat.shiftLeft_eq]

variable (hop : op < 16) (hch : ch < 4) (hv : v < 2 ^ 24)
include hop hch hv

theorem commandWord_toNat : (commandWord op ch v).toNat = op * 2 ^ 28 + ch * 2 ^ 26 + v := by
  simp only [commandWord, Int.toNat_natCast, BitVec.toNat_ofNat]
  omega

theorem opField_commandWord : opField (commandWord op ch v) = BitVec.ofNat 4 op := by
  rw [BitVec.toNat_eq, opField_toNat, commandWord_toNat hop hch hv, BitVec.toNat_ofNat]
  omega

theorem chField_commandWord : (chField (commandWord op ch v)).toNat = ch := by
  rw [chField_toNat, commandWord_toNat hop hch hv]
  omega

theorem rsvField_commandWord : rsvField (commandWord op ch v) = 0#2 := by
  rw [BitVec.toNat_eq, rsvField_toNat, commandWord_toNat hop hch hv, BitVec.toNat_ofNat]
  omega

theorem immField_commandWord : (immField (commandWord op ch v)).toNat = v := by
  rw [immField_toNat, commandWord_toNat hop hch hv]
  omega

theorem immHighField_commandWord : (immHighField (commandWord op ch v)).toNat = v / 256 := by
  rw [immHighField_toNat, commandWord_toNat hop hch hv]
  omega

theorem immLowField_commandWord : (immLowField (commandWord op ch v)).toNat = v % 256 := by
  rw [immLowField_toNat, commandWord_toNat hop hch hv]
  omega

end CommandWord

/-! ### Encoding and decoding one command -/

theorem encode_wrfreq {ch v : Nat} (hch : ch < 4) (hv : v < 2 ^ 24) :
    encode (.wrfreq ch v) = some (commandWord 0x1 ch v) := by
  refine if_pos ?_
  simp only [Instr.wellFormed, channelOk, imm24Ok, Bool.and_eq_true, decide_eq_true_eq]
  omega

theorem encode_wrctrl {ch v : Nat} (hch : ch < 4) (hv : v < 256) :
    encode (.wrctrl ch v) = some (commandWord 0x2 ch v) := by
  refine if_pos ?_
  simp only [Instr.wellFormed, channelOk, controlOk, Bool.and_eq_true, decide_eq_true_eq]
  omega

theorem encode_render {n : Nat} (hn : n < 2 ^ 24) : encode (.render n) = some (commandWord 0x4 (0 : Nat) n) := by
  refine if_pos ?_
  simp only [Instr.wellFormed, imm24Ok, decide_eq_true_eq]
  omega

/-- A divider value of 2^24 or more has no word (R73). -/
theorem encode_wrfreq_eq_none {ch v : Int} (hv : 2 ^ 24 ≤ v) : encode (.wrfreq ch v) = none := by
  rw [← Option.not_isSome_iff_eq_none, Laws.Encodable.isSome_encode]
  simp only [Instr.wellFormed, imm24Ok, Bool.and_eq_true, decide_eq_true_eq]
  omega

theorem decode_commandWord_wrfreq {ch v : Nat} (hch : ch < 4) (hv : v < 2 ^ 24) :
    decode (commandWord 0x1 ch v) = .ok (.wrfreq ch v) := by
  have hop : 1 < 16 := by decide
  rw [decode_eq_wrfreq, chField_commandWord hop hch hv, immField_commandWord hop hch hv]
  exact ⟨rsvField_commandWord hop hch hv, opField_commandWord hop hch hv, rfl, rfl⟩

theorem decode_commandWord_wrctrl {ch v : Nat} (hch : ch < 4) (hv : v < 256) :
    decode (commandWord 0x2 ch v) = .ok (.wrctrl ch v) := by
  have hop : 2 < 16 := by decide
  have hv24 : v < 2 ^ 24 := by omega
  rw [decode_eq_wrctrl, chField_commandWord hop hch hv24, immLowField_commandWord hop hch hv24, Nat.mod_eq_of_lt hv]
  refine ⟨rsvField_commandWord hop hch hv24, opField_commandWord hop hch hv24, ?_, rfl, rfl⟩
  rw [BitVec.toNat_eq, immHighField_commandWord hop hch hv24, Nat.div_eq_of_lt hv, BitVec.toNat_ofNat, Nat.zero_mod]

theorem decode_commandWord_render {n : Nat} (hn : n < 2 ^ 24) :
    decode (commandWord 0x4 (0 : Nat) n) = .ok (.render n) := by
  have hop : 4 < 16 := by decide
  have hch : 0 < 4 := by decide
  rw [decode_eq_render, immField_commandWord hop hch hn]
  exact ⟨rsvField_commandWord hop hch hn, opField_commandWord hop hch hn,
    BitVec.eq_of_toNat_eq (chField_commandWord hop hch hn), rfl⟩

/-! ### The obligations -/

/-- Settles O3: the mask and the decoder ask for the same two fields; the word is `commandWord`, whose fields are the operands; and
the abstract command takes every natural divider, with a word or without. -/
theorem wrfreqWords : Obligations.WrfreqWords := by
  unfold Obligations.WrfreqWords
  refine ⟨fun w => ?mask, fun ch v hch hv => ?word, fun c v hv => ⟨?noWord, fun s hs => ?effect⟩⟩
  case mask => simp [decode_eq_wrfreq, wrfreqMask_iff]
  case word =>
    have hw : commandWord 0x1 ch v = BitVec.ofNat 32 (0x10000000 + (ch <<< 26) + v) := commandWord_eq_shiftLeft 0x1 ch v
    exact hw ▸ ⟨encode_wrfreq hch hv, decode_commandWord_wrfreq hch hv⟩
  case noWord => exact encode_wrfreq_eq_none (by exact_mod_cast hv)
  case effect => exact ⟨_, Machine.exec_wrfreq hs c v, by simp⟩

/-- Settles O4: the mask and the decoder ask for the same three fields; the word is `commandWord`, whose fields are the operands; and
the decoder refuses a nonzero `imm[23:8]`. -/
theorem wrctrlWords : Obligations.WrctrlWords := by
  unfold Obligations.WrctrlWords
  refine ⟨fun w => ?mask, fun ch v hch hv => ?word, fun w hop hi => ?tooWide⟩
  case mask => simp [decode_eq_wrctrl, wrctrlMask_iff]
  case word =>
    have hw : commandWord 0x2 ch v = BitVec.ofNat 32 (0x20000000 + (ch <<< 26) + v) := commandWord_eq_shiftLeft 0x2 ch v
    exact hw ▸ ⟨encode_wrctrl hch hv, decode_commandWord_wrctrl hch hv⟩
  case tooWide =>
    rw [← opField_toNat] at hop
    rw [← immHighField_toNat] at hi
    exact decode_error_of_controlTooWide (BitVec.eq_of_toNat_eq hop) (fun h => hi (by rw [h]; rfl))

/-- Settles O5: STEP fixes every field, RENDER all but `imm`, and the mask and the decoder ask for the same ones; the word of
RENDER n is `commandWord` at channel 0. -/
theorem stepAndRenderWords : Obligations.StepAndRenderWords := by
  unfold Obligations.StepAndRenderWords
  refine ⟨fun w => ?stepMask, ?stepWord, fun w => ?renderMask, fun n hn => ?renderWord⟩
  case stepMask => rw [decode_eq_step, stepMask_iff]
  case stepWord => decide
  case renderMask => simp [decode_eq_render, renderMask_iff]
  case renderWord =>
    have hw : commandWord 0x4 (0 : Nat) n = BitVec.ofNat 32 (0x40000000 + n) := commandWord_eq_shiftLeft 0x4 0 n
    exact hw ▸ ⟨encode_render hn, decode_commandWord_render hn⟩

end Sys2Proof
end

section
/-!
PROOFS. The one noise sequence the noise-mode channels share (41_noise_lfsr R103, 42_sample_step R113): the ranks of the noise-mode
channels, the bit each of them takes after `n` sample steps, and O21.
-/

namespace Sys2Proof.Machine

/-! ### The ranks of the noise-mode channels -/

/-- A filter that keeps less, and loses an element of the list, leaves a shorter list. -/
theorem length_filter_lt_length_filter {α : Type} {p q : α → Bool} {l : List α} {a : α} (hpq : ∀ x, p x = true → q x = true)
    (ha : a ∈ l) (hp : p a = false) (hq : q a = true) : (l.filter p).length < (l.filter q).length := by
  have hsub : l.filter p = (l.filter q).filter p := by
    rw [List.filter_filter]
    exact List.filter_congr fun x _ => by cases h : p x <;> simp [h, hpq]
  rw [hsub, List.length_filter_lt_length_iff_exists]
  exact ⟨a, List.mem_filter.2 ⟨ha, hq⟩, by simp [hp]⟩

theorem mem_channelOrder (c : Chan) : c ∈ channelOrder := by
  fin_cases c <;> decide

/-- The bits of one STEP suffice for its noise-mode channels: a rank is one of 0 to j - 1 (R103). -/
theorem noiseRank_lt_noiseCount {s : State} {c : Chan} (h : isNoise (ctrl s c) = true) : noiseRank s c < noiseCount s :=
  length_filter_lt_length_filter (fun _ hd => (Bool.and_eq_true_iff.1 hd).2) (mem_channelOrder c) (by simp) h

/-- The bits are given out in ascending channel order (R103). -/
theorem noiseRank_lt_noiseRank {s : State} {d c : Chan} (hdc : d < c) (hd : isNoise (ctrl s d) = true) :
    noiseRank s d < noiseRank s c := by
  refine length_filter_lt_length_filter (fun x hx => ?_) (mem_channelOrder d) (by simp) (by simp [hdc, hd])
  simp only [Bool.and_eq_true, decide_eq_true_eq] at hx ⊢
  exact ⟨hx.1.trans hdc, hx.2⟩

/-! ### What a noise-mode channel takes from the shared sequence -/

theorem stepLevel_of_noise {s : State} {c : Chan} (h : isNoise (ctrl s c) = true) :
    stepLevel s c = levelOfBit (noiseBit (noiseNext^[noiseRank s c] s.lfsrState)) := if_pos h

/-- After `n` sample steps the bit of rank r is number n * j + r of the sequence (R103). -/
theorem stepLevel_sampleSteps_of_noise (n : Nat) {s : State} {c : Chan} (h : isNoise (ctrl s c) = true) :
    stepLevel (sampleSteps n s) c =
      levelOfBit (noiseBit (noiseNext^[n * noiseCount s + noiseRank s c] s.lfsrState)) := by
  rw [stepLevel_of_noise (by rwa [ctrl_sampleSteps]), noiseRank_sampleSteps, sampleSteps_lfsrState,
    ← Function.iterate_add_apply, Nat.add_comm]

theorem wrapPhase_eq_ite (p : Rat) : wrapPhase p = if 1 ≤ p then p - 1 else p := by
  simp only [wrapPhase, wraps_iff]

/-! ### The obligation -/

/-- Settles O21: serving `n` STEPs is `n` sample steps, whose register and levels are those of the shared sequence; the ranks count
the noise-mode channels up. -/
theorem sharedNoiseSequence : Obligations.SharedNoiseSequence := by
  unfold Obligations.SharedNoiseSequence
  intro s n hs
  have hn := serveAll_stepCommands n hs
  refine ⟨⟨_, hn, sampleSteps_lfsrState n s, fun h0 => ?untouched⟩,
    ⟨_, _, hn, serveAll_stepCommands (n + 1) hs, fun c hc => ⟨?level, ?phase⟩⟩,
    fun c hc => ⟨noiseRank_lt_noiseCount hc, fun d hdc hd => noiseRank_lt_noiseRank hdc hd⟩⟩
  case untouched =>
    have hl := sampleSteps_lfsrState n s
    rwa [h0, Nat.mul_zero] at hl
  case level =>
    have ho := out_sampleSteps_succ n s c
    rwa [stepLevel_sampleSteps_of_noise n hc] at ho
  case phase =>
    have hp := phase_sampleSteps_succ n s c
    rwa [wrapPhase_eq_ite] at hp

end Sys2Proof.Machine
end

section
/-!
PROOFS. The phase update of one STEP (42_sample_step R111, R112): the increment as two exact divisions, the tone level, and O25.
-/

namespace Sys2Proof.Machine

/-! ### Divisor, increment and tone level -/

theorem one_le_divisor (s : State) (c : Chan) : 1 ≤ divisor s c := Nat.succ_pos _

/-- R112 divides by the divisor and then by the sample rate; the model divides once, by their product. -/
theorem phaseIncrement_eq_div_div (s : State) (c : Chan) :
    phaseIncrement s c = ((s.clockRate : Rat) / (divisor s c : Rat)) / (s.sampleRate : Rat) := by
  rw [phaseIncrement, Nat.cast_mul, div_mul_eq_div_div]

theorem toneLevel_eq_ite (p : Rat) : toneLevel p = if 1 ≤ p then .plus else .minus := by
  simp only [toneLevel, wraps_iff]

theorem stepLevel_of_tone {s : State} {c : Chan} (h : ToneMode s c) : stepLevel s c = toneLevel (phaseSum s c) :=
  if_neg (Bool.eq_false_iff.1 h)

/-- A sum of exactly 1 wraps, to 0 (R112). -/
theorem wrapPhase_one : wrapPhase 1 = 0 := by
  rw [wrapPhase_of_le le_rfl, sub_self]

/-! ### The obligation -/

/-- Settles O25: a STEP leaves each channel the wrapped sum and, in tone mode, the tone level of that sum; the increment in the sum
is R112's pair of divisions, whose inverse is the period. -/
theorem phaseUpdate : Obligations.PhaseUpdate := by
  unfold Obligations.PhaseUpdate
  intro s hs
  refine ⟨_, exec_step hs, fun c => ⟨rfl, one_le_divisor s c, ?_⟩⟩
  rw [← phaseIncrement_eq_div_div]
  refine ⟨?wrapped, fun hone => ?exactHit, fun htone => ?toneOutput, ?period⟩
  case wrapped => rw [phase_deliver, phase_sampleStep, wrapPhase_eq_ite, phaseSum]
  case exactHit => rw [phase_deliver, phase_sampleStep, phaseSum, hone, wrapPhase_one]
  case toneOutput => rw [out_deliver, out_sampleStep, stepLevel_of_tone htone, toneLevel_eq_ite, phaseSum]
  case period => rw [phaseIncrement_eq_div_div, inv_div]

end Sys2Proof.Machine
end

section
/-!
PROOFS. RENDER within capacity and above it (43_render_quantize R131, R140; 60_exceptions R155): sample i + 1 of a buffer is the
quantised mix of STEP number i + 1, what a RENDER that runs out of room leaves, the fault an effect delivers, and O38 and O40.
-/

namespace Sys2Proof.Machine

/-! ### RENDER within capacity -/

/-- RENDER within capacity runs `n` sample steps and returns their quantised mixes (R130, R131). -/
theorem exec_render_of_fits {s : State} {n : Nat} (hs : Live s) (hn : Fits n s) :
    exec (.render n) s = .next (deliver (.buffer ((mixes n s).map quantSample)) (sampleSteps n s)) := by
  rw [exec_render hs, renderCount_of_fits (n := n) hn]

theorem mixes_succ (n : Nat) (s : State) : mixes (n + 1) s = mixes n s ++ [stepMix (sampleSteps n s)] :=
  mixes_add n 1 s

/-- The last of `i + 1` STEP commands returns the mix of the state after `i` sample steps (R118). -/
theorem serveAll_stepCommands_succ_getLast (i : Nat) {s : State} (hs : Live s) :
    ∃ v, serveAll (stepCommands (i + 1)) s = .next v ∧ v.results.getLast? = some (.mix (stepMix (sampleSteps i s))) := by
  refine ⟨_, serveAll_stepCommands (i + 1) hs, ?_⟩
  simp [withHost, mixes_succ]

/-- Sample number `i` of the buffer is made from the state after `i` sample steps (R131, R53). -/
theorem eq_quantSample_of_getElem? {n i : Nat} {s : State} {x : Sample}
    (h : ((mixes n s).map quantSample)[i]? = some x) : x = quantSample (stepMix (sampleSteps i s)) := by
  obtain ⟨hi, rfl⟩ := List.getElem?_eq_some_iff.1 h
  rw [List.getElem_map, mixes_getElem]

/-- The 16-bit pattern loses nothing of a sample, because a mix is in -60..60 (R134). -/
theorem quantSample_stepMix_toInt (s : State) : (quantSample (stepMix s)).toInt = quant (stepMix s) :=
  quantSample_toInt (stepMix_range s).1 (stepMix_range s).2

/-- Settles O38: RENDER and `n` STEP commands make the same `n` sample steps, RENDER delivering their quantised mixes in one buffer
and the STEPs each its own mix. -/
theorem renderResult : Obligations.RenderResult := by
  unfold Obligations.RenderResult
  intro s n hs hn
  refine ⟨_, (mixes n s).map quantSample, exec_render_of_fits hs hn, ?results, ?length, ?port, ?draws,
    ⟨_, serveAll_stepCommands n hs, rfl⟩, fun i x hx => ?sample, ?empty⟩
  case results => simp
  case length => simp
  case port => simp
  case draws => simp
  case sample =>
    obtain ⟨v, hv, hlast⟩ := serveAll_stepCommands_succ_getLast i hs
    rw [eq_quantSample_of_getElem? hx]
    exact ⟨v, _, hv, hlast, quantSample_stepMix_toInt _⟩
  case empty =>
    rintro rfl
    rfl

/-! ### RENDER above capacity -/

/-- RENDER above capacity takes RESOURCE_EXHAUSTED after some number of sample steps, at most `n` (R140, U6). -/
theorem exec_render_of_exceeds {s : State} {n : Nat} (hs : Live s) (hn : exceedsCapacity n s.bufCapacity = true) :
    ∃ k ≤ n, exec (.render n) s = .next (takeFault (.resourceExhausted n) (sampleSteps k (takeDraw s))) := by
  obtain ⟨k, hk, e⟩ := exhaust_eq n s
  exact ⟨k, hk, by rw [exec_render hs, renderCount_of_exceeds hn, e]⟩

/-- No sample step reads the free-value counter. -/
theorem engine_sampleSteps_takeDraw (k : Nat) (s : State) : engine (sampleSteps k (takeDraw s)) = engine (sampleSteps k s) := by
  have h : takeDraw s = withHost s.port s.results (s.draws + 1) s := rfl
  rw [h, sampleSteps_withHost, engine_withHost]

/-- Of the engine's own state a fault writes `faulted` only (R157). -/
theorem engine_takeFault_faulted_false (r : FaultRecord) {s : State} (hs : Live s) :
    { engine (takeFault r s) with faulted := false } = engine s := by
  have h : engine s = { engine (takeFault r s) with faulted := s.faulted } := rfl
  rw [h, hs]

/-! ### The fault an effect delivers -/

/-- An effect either delivers a result that is no fault and leaves `faulted` alone, or takes a fault: one with code 1 to 4 at once,
or RESOURCE_EXHAUSTED after at most `n` sample steps (R140, R157). -/
theorem Effect.result_cases {s t : State} (h : Effect s t) :
    (∃ r, isFaultResult r = false ∧ t.results = s.results ++ [r] ∧ t.faulted = s.faulted) ∨
    (∃ r, faultCode r ≤ 4 ∧ t = takeFault r s) ∨
    ∃ n k, k ≤ n ∧ exceedsCapacity n s.bufCapacity = true ∧
      t = takeFault (.resourceExhausted n) (sampleSteps k (takeDraw s)) := by
  cases h with
  | wroteFreq c n => exact .inl ⟨.nothing, rfl, rfl, rfl⟩
  | wroteCtrl c b => exact .inl ⟨.nothing, rfl, rfl, rfl⟩
  | stepped => exact .inl ⟨.mix (stepMix s), rfl, by simp, by simp⟩
  | rendered n hn => exact .inl ⟨.buffer ((mixes n s).map quantSample), rfl, by simp, by simp⟩
  | faulted r hr => exact .inr (.inl ⟨r, hr, rfl⟩)
  | exhausted n k hk hn => exact .inr (.inr ⟨n, k, hk, hn, rfl⟩)

/-- Which effects deliver the fault `r`. -/
theorem Effect.eq_takeFault_of_results {s t : State} {r : FaultRecord} (h : Effect s t)
    (hr : t.results = s.results ++ [.fault r]) :
    (faultCode r ≤ 4 ∧ t = takeFault r s) ∨
    ∃ n k, r = .resourceExhausted n ∧ k ≤ n ∧ exceedsCapacity n s.bufCapacity = true ∧
      t = takeFault r (sampleSteps k (takeDraw s)) := by
  rcases h.result_cases with ⟨q, hq, hres, -⟩ | ⟨q, hq, rfl⟩ | ⟨n, k, hk, hn, rfl⟩
  · obtain rfl : q = .fault r := by simpa [hres] using hr
    cases hq
  · obtain rfl : q = r := by simpa using hr
    exact .inl ⟨hq, rfl⟩
  · obtain rfl : FaultRecord.resourceExhausted n = r := by simpa using hr
    exact .inr ⟨n, k, rfl, hk, hn, rfl⟩

/-- Settles O40: RENDER above capacity takes the fault after some number of sample steps, which STEP commands make too; and an effect
that delivers RESOURCE_EXHAUSTED has found the count above the capacity. -/
theorem renderExhausted : Obligations.RenderExhausted := by
  unfold Obligations.RenderExhausted
  refine ⟨fun s n cap hs hcap hn => ?exhausted, fun n => rfl, fun s t cmd hcap h n hr => ?unbounded⟩
  case exhausted =>
    obtain ⟨k, hk, he⟩ := exec_render_of_exceeds hs (n := n) (by simpa [hcap] using hn)
    refine ⟨_, _, k, he, rfl, by simp, hk, serveAll_stepCommands k hs, ?_, exec_of_faulted rfl⟩
    have hlive : Live (sampleSteps k (takeDraw s)) := (sampleSteps_faulted k (takeDraw s)).trans hs
    rw [engine_takeFault_faulted_false _ hlive, engine_sampleSteps_takeDraw, engine_withHost]
  case unbounded =>
    rcases (serve_effect h).2.eq_takeFault_of_results hr with ⟨hcode, -⟩ | ⟨m, k, -, -, hm, -⟩
    · exact absurd hcode (by simp [faultCode])
    · simp [hcap] at hm

end Sys2Proof.Machine
end

section
/-!
PROOFS. What a fault does (60_exceptions section 2; 43_render_quantize R140): which commands set `faulted`, what each fault leaves
unchanged, and O47.
-/

namespace Sys2Proof.Machine

/-- No command reads or writes the port (log entry 1). -/
theorem Effect.port_eq {s t : State} (h : Effect s t) : t.port = s.port := by
  cases h <;> simp

/-- A command of a live engine sets `faulted` exactly if it delivers a fault in place of its result (R157). -/
theorem Effect.faulted_iff {s t : State} (h : Effect s t) (hs : Live s) :
    t.faulted = true ↔ ∃ r, t.results = s.results ++ [.fault r] := by
  rcases h.result_cases with ⟨q, hq, hres, hf⟩ | ⟨r, -, rfl⟩ | ⟨n, k, -, -, rfl⟩
  · have hno : ¬∃ r, t.results = s.results ++ [.fault r] := by
      rintro ⟨r, hr⟩
      obtain rfl : q = .fault r := by simpa [hres] using hr
      cases hq
    simp [hf, hs, hno]
  · exact iff_of_true rfl ⟨r, rfl⟩
  · exact iff_of_true rfl ⟨.resourceExhausted n, by simp⟩

theorem one_le_faultCode (r : FaultRecord) : 1 ≤ faultCode r := by
  cases r <;> simp [faultCode]

/-- Settles O47: a command that delivers a fault has taken it at once, with code 1 to 4, or with code 5 after some sample steps,
which write no rate, register or capacity. -/
theorem faultEntry : Obligations.FaultEntry := by
  unfold Obligations.FaultEntry
  intro s t cmd h
  obtain ⟨hs, he⟩ := serve_effect h
  refine ⟨he.faulted_iff hs, he.port_eq, fun r hr => ?_⟩
  rcases he.eq_takeFault_of_results hr with ⟨hcode, rfl⟩ | ⟨n, k, rfl, -, -, rfl⟩
  · exact ⟨⟨one_le_faultCode r, by omega⟩, fun _ => rfl, by simp⟩
  · have hcode : faultCode (.resourceExhausted n) = 5 := rfl
    exact ⟨by omega, fun h4 => by omega, by simp⟩

end Sys2Proof.Machine
end

section
/-!
PROOFS. When each fault of codes 1, 2, 4 and 6 is raised and what it writes (60_exceptions R151, R152, R154, R156, R158): CONSTRUCT,
the decoder and the register writes on operands out of range, an engine that has faulted, and O2, O8, O15 and O46.
-/

namespace Sys2Proof

/-! ### The words the decoder does not accept -/

/-- Which fields a legal word has: the list of R79, negated. -/
theorem exists_decode_eq_ok {w : Word} : (∃ i, decode w = .ok i) ↔ rsvField w = 0#2 ∧
    (opField w = 0x1#4 ∨ (opField w = 0x2#4 ∧ immHighField w = 0#16) ∨
     (opField w = 0x3#4 ∧ chField w = 0#2 ∧ immField w = 0#24) ∨ (opField w = 0x4#4 ∧ chField w = 0#2)) := by
  simp only [decode_eq_ok, exists_and_left, exists_or, exists_eq, and_true]

theorem exists_decode_eq_error {w : Word} : (∃ e, decode w = .error e) ↔ ¬∃ i, decode w = .ok i := by
  cases decode w <;> simp

end Sys2Proof

namespace Sys2Proof.Machine

/-! ### What raises a fault -/

/-- Taking a fault is the fault of R157: `faulted` and the received fault are all that changes. -/
theorem faultsWith_takeFault (r : FaultRecord) (s : State) : FaultsWith (.next (takeFault r s)) r s :=
  ⟨_, rfl, rfl, rfl, rfl⟩

theorem serve_word_of_error {w : Word} {s : State} {e : DecodeError} (hs : Live s) (he : decode w = .error e) :
    serve (.word w) s = .next (takeFault (.illegalCommand w) s) := by
  simp only [serve, serveWord, he, whileLive_of_live hs]

section RegisterWrites

variable {s : State} {ch v : Int} (hs : Live s)
include hs

/-- The channel is checked before the value is looked at (R161). -/
theorem exec_wrfreq_of_channel (hch : ¬(0 ≤ ch ∧ ch < 4)) :
    exec (.wrfreq ch v) s = .next (takeFault (.channelRange (.wrfreq ch v)) s) := by
  simp only [exec, execWrfreq, whileLive_of_live hs, channelOf_eq_none.2 hch]

theorem exec_wrctrl_of_channel (hch : ¬(0 ≤ ch ∧ ch < 4)) :
    exec (.wrctrl ch v) s = .next (takeFault (.channelRange (.wrctrl ch v)) s) := by
  simp only [exec, execWrctrl, whileLive_of_live hs, channelOf_eq_none.2 hch]

theorem exec_wrfreq_of_value (c : Chan) (hv : v < 0) :
    exec (.wrfreq c.val v) s = .next (takeFault (.valueRange (.wrfreq c.val v)) s) := by
  simp only [exec, execWrfreq, whileLive_of_live hs, channelOf_val, dividerOf_eq_none.2 hv]

theorem exec_wrctrl_of_value (c : Chan) (hv : ¬(0 ≤ v ∧ v < 256)) :
    exec (.wrctrl c.val v) s = .next (takeFault (.valueRange (.wrctrl c.val v)) s) := by
  simp only [exec, execWrctrl, whileLive_of_live hs, channelOf_val, controlOf_eq_none.2 hv]

end RegisterWrites

/-- An operand in range names a channel. -/
theorem exists_chan_of_range {ch : Int} (h : 0 ≤ ch ∧ ch < 4) : ∃ c : Chan, ch = (c.val : Int) :=
  ⟨⟨ch.toNat, by omega⟩, (Int.toNat_of_nonneg h.1).symm⟩

/-- CONSTRUCT with a parameter below 1, given or defaulted (R156). -/
theorem construct_of_lt_one {cr sr : Option Int}
    (h : cr.getD Config.defaultClockRate < 1 ∨ sr.getD Config.defaultSampleRate < 1) (cap : Option Nat) :
    construct cr sr cap = .fault (.noInstance .constructRange) := if_pos h

/-! ### An engine that has faulted -/

/-- A faulted engine has no step, whatever waits on its port (R158). -/
theorem step_of_faulted {s : State} (h : s.faulted = true) : step s = .fault .engineFaulted := by
  unfold step serveNext
  split
  · exact whileLive_of_faulted h _
  · exact serve_of_faulted ((setPort_faulted _ s).trans h) _

theorem serveAll_cons_fault {cmd : Command} {rest : List Command} {s : State} {r : Fault} (h : serve cmd s = .fault r) :
    serveAll (cmd :: rest) s = .fault r := by simp only [serveAll, h]

/-! ### The obligations -/

/-- Settles O8: CONSTRUCT tests exactly the two parameters, and answers the fresh instance where neither is below 1. -/
theorem constructRangeFault : Obligations.ConstructRangeFault := by
  unfold Obligations.ConstructRangeFault
  exact fun cr sr cap => ⟨fun h => construct_of_lt_one (cr := some cr) (sr := some sr) h cap,
    fun hcr hsr => ⟨_, construct_eq_next.2 ⟨hcr, hsr, rfl⟩⟩, rfl⟩

/-- Settles O2: a word is illegal where its fields are not those of a legal word, which read as numbers is R79's list; the decoder's
error then makes a live engine take the fault. -/
theorem illegalWordsFault : Obligations.IllegalWordsFault := by
  unfold Obligations.IllegalWordsFault
  refine fun w => ⟨?list, rfl, fun s hs ⟨e, he⟩ => ?taken⟩
  case list =>
    have hop : w.toNat / 2 ^ 28 < 16 := opField_toNat w ▸ (opField w).isLt
    rw [exists_decode_eq_error, exists_decode_eq_ok]
    simp only [BitVec.toNat_eq, opField_toNat, chField_toNat, rsvField_toNat, immField_toNat, immHighField_toNat,
      BitVec.toNat_ofNat]
    omega
  case taken => exact serve_word_of_error hs he ▸ faultsWith_takeFault _ s

/-- Settles O15: each operand out of range makes the write take its fault before any register is written; the value is only reached
on an operand that names a channel. -/
theorem registerWriteFaults : Obligations.RegisterWriteFaults := by
  unfold Obligations.RegisterWriteFaults
  refine fun s ch v hs => ⟨fun hch => ⟨?freqChannel, ?ctrlChannel⟩, fun hch hv => ?freqValue, fun hch hv => ?ctrlValue,
    fun i => ⟨rfl, rfl⟩⟩
  case freqChannel => exact exec_wrfreq_of_channel hs hch ▸ faultsWith_takeFault _ s
  case ctrlChannel => exact exec_wrctrl_of_channel hs hch ▸ faultsWith_takeFault _ s
  case freqValue =>
    obtain ⟨c, rfl⟩ := exists_chan_of_range hch
    exact exec_wrfreq_of_value hs c hv ▸ faultsWith_takeFault _ s
  case ctrlValue =>
    obtain ⟨c, rfl⟩ := exists_chan_of_range hch
    exact exec_wrctrl_of_value hs c hv ▸ faultsWith_takeFault _ s

/-- Settles O46: every command is guarded by `faulted`, so the first command of a list already stops. -/
theorem faultedEngineStops : Obligations.FaultedEngineStops := by
  unfold Obligations.FaultedEngineStops
  refine fun s hs => ⟨serve_of_faulted hs, exec_of_faulted hs, step_of_faulted hs, fun cmds t h => ?_⟩
  cases cmds with
  | nil =>
    cases h
    exact ⟨rfl, rfl⟩
  | cons cmd rest =>
    rw [serveAll_cons_fault (serve_of_faulted hs cmd)] at h
    cases h

end Sys2Proof.Machine
end

section
/-!
PROOFS. The noise register at 0 (60_exceptions R169; 41_noise_lfsr R106): 0 is kept and sounds as -1 in every noise-mode channel, no
command brings another value to it, and O22.
-/

namespace Sys2Proof.Machine

/-! ### From 0 -/

theorem noiseNext_iterate_zero (k : Nat) : noiseNext^[k] 0#17 = 0#17 := Function.iterate_fixed noiseNext_zero k

theorem noiseBit_zero : noiseBit 0#17 = false := by decide

/-- With the register at 0 every noise-mode channel is at -1 in every sample (R169). -/
theorem stepLevel_sampleSteps_of_lfsr_zero (n : Nat) {s : State} {c : Chan} (h0 : s.lfsrState = 0#17)
    (hc : isNoise (ctrl s c) = true) : stepLevel (sampleSteps n s) c = .minus := by
  rw [stepLevel_sampleSteps_of_noise n hc, h0, noiseNext_iterate_zero, noiseBit_zero]
  rfl

/-! ### To 0 -/

/-- A command changes the noise register by NSTEPs only: none of them loads it (R27, R169). -/
theorem Effect.exists_lfsrState {s t : State} (h : Effect s t) : ∃ k, t.lfsrState = noiseNext^[k] s.lfsrState := by
  cases h with
  | wroteFreq c n => exact ⟨0, rfl⟩
  | wroteCtrl c b => exact ⟨0, rfl⟩
  | stepped => exact ⟨_, sampleStep_lfsrState s⟩
  | rendered n hn => exact ⟨_, sampleSteps_lfsrState n s⟩
  | faulted r hr => exact ⟨0, rfl⟩
  | exhausted n k hk hn => exact ⟨_, sampleSteps_lfsrState k (takeDraw s)⟩

theorem step_lfsrState_ne_zero {s t : State} (h : step s = .next t) (hs : s.lfsrState ≠ 0#17) : t.lfsrState ≠ 0#17 := by
  obtain ⟨-, ⟨-, rfl⟩ | ⟨cmd, rest, -, -, he⟩⟩ := step_effect h
  · exact hs
  · obtain ⟨k, hk⟩ := he.exists_lfsrState
    rw [hk]
    exact noiseNext_iterate_ne_zero hs k

/-- The seed is not 0, and nothing after construction reaches it (R31, R169). -/
theorem Reachable.lfsrState_ne_zero {s : State} (h : Reachable s) : s.lfsrState ≠ 0#17 := by
  induction h with
  | constructed cr sr cap hc =>
    obtain ⟨-, -, rfl⟩ := construct_eq_next.1 hc
    exact (by decide : Config.lfsrSeed ≠ 0#17)
  | issued cmd _ ih => exact ih
  | stepped _ hstep ih => exact step_lfsrState_ne_zero hstep ih

/-! ### The obligation -/

/-- Settles O22: 0 is a fixed point of NSTEP whose bit is 0, and NSTEP, being injective, comes to 0 from nowhere else. -/
theorem zeroLfsrIsAbsorbing : Obligations.ZeroLfsrIsAbsorbing := by
  unfold Obligations.ZeroLfsrIsAbsorbing
  refine ⟨fun s n hs h0 => ⟨_, serveAll_stepCommands (n + 1) hs, ?kept, fun c hc => ?minus⟩, noiseBit_zero, noiseNext_zero,
    fun s hs => hs.lfsrState_ne_zero⟩
  case kept =>
    have hl := sampleSteps_lfsrState (n + 1) s
    rwa [h0, noiseNext_iterate_zero] at hl
  case minus =>
    have ho := out_sampleSteps_succ n s c
    rwa [stepLevel_sampleSteps_of_lfsr_zero n h0 hc] at ho

end Sys2Proof.Machine
end

section
/-!
PROOFS. Commands with operands in range never fault (60_exceptions R162): what such a command does to a live engine, lists of them,
and O48.
-/

namespace Sys2Proof.Machine

/-! ### One executable command -/

theorem executable_render_iff {n : Int} {s : State} : Executable (.render n) s ↔ 0 ≤ n ∧ Fits n s := by
  simp [Executable, Instr.legal]

/-- Of the state, only the capacity decides whether a command can be executed (R140, R162). -/
theorem Executable.of_bufCapacity_eq {i : Instr} {s t : State} (h : t.bufCapacity = s.bufCapacity) (hi : Executable i s) :
    Executable i t := by
  cases i with
  | render n =>
    rw [executable_render_iff] at hi ⊢
    rwa [Fits, h]
  | wrfreq ch v => exact hi
  | wrctrl ch v => exact hi
  | step => exact hi

/-- Operands in range are a channel with a natural divider or a byte, or a natural count: each command then completes with one
result that is no fault, and leaves the engine live and its capacity as it was. -/
theorem exec_of_executable {i : Instr} {s : State} (hs : Live s) (hi : Executable i s) :
    ∃ t r, exec i s = .next t ∧ Live t ∧ t.bufCapacity = s.bufCapacity ∧ t.results = s.results ++ [r] ∧
      isFaultResult r = false := by
  cases i with
  | wrfreq ch v =>
    have hlegal := hi.1
    simp only [Instr.legal, channelOk, Bool.and_eq_true, decide_eq_true_eq] at hlegal
    obtain ⟨hch, hv⟩ := hlegal
    obtain ⟨c, rfl⟩ := exists_chan_of_range hch
    obtain ⟨n, rfl⟩ := Int.eq_ofNat_of_zero_le hv
    exact ⟨_, .nothing, exec_wrfreq hs c n, hs, rfl, rfl, rfl⟩
  | wrctrl ch v =>
    have hlegal := hi.1
    simp only [Instr.legal, channelOk, controlOk, Bool.and_eq_true, decide_eq_true_eq] at hlegal
    obtain ⟨hch, hv⟩ := hlegal
    obtain ⟨c, rfl⟩ := exists_chan_of_range hch
    obtain ⟨b, rfl⟩ : ∃ b : Byte, v = (b.toNat : Int) := ⟨_, controlOf_eq_some.1 (if_pos hv)⟩
    exact ⟨_, .nothing, exec_wrctrl hs c b, hs, rfl, rfl, rfl⟩
  | step => exact ⟨_, .mix (stepMix s), exec_step hs, (sampleStep_faulted s).trans hs, by simp, by simp, rfl⟩
  | render n =>
    obtain ⟨hn, hfits⟩ := executable_render_iff.1 hi
    obtain ⟨n, rfl⟩ := Int.eq_ofNat_of_zero_le hn
    exact ⟨_, .buffer ((mixes n s).map quantSample), exec_render_of_fits hs hfits, (sampleSteps_faulted n s).trans hs,
      by simp, by simp, rfl⟩

/-! ### The obligation -/

/-- Settles O48, by induction on the list: an executable command leaves a live engine of the same capacity, in which the rest of
the list is executable still. -/
theorem legalCommandsNeverFault : Obligations.LegalCommandsNeverFault := by
  unfold Obligations.LegalCommandsNeverFault
  intro s is hs his
  induction is generalizing s with
  | nil => exact ⟨s, [], rfl, hs, by simp, rfl, by simp⟩
  | cons i is ih =>
    obtain ⟨hi, hrest⟩ := List.forall_mem_cons.1 his
    obtain ⟨u, r, hexec, hu, hcap, hres, hr⟩ := exec_of_executable hs hi
    obtain ⟨t, rs, hserve, ht, hts, hlen, hrs⟩ := ih u hu fun j hj => (hrest j hj).of_bufCapacity_eq hcap
    refine ⟨t, r :: rs, ?_, ht, by simp [hts, hres], by simp [hlen], List.forall_mem_cons.2 ⟨hr, hrs⟩⟩
    rw [List.map_cons, serveAll_call_next hexec, hserve]

end Sys2Proof.Machine
end

section
/-!
PROOFS. The decoder against the pseudocode of R81, the two round trips between words and commands, and O1 and O6.
-/

namespace Sys2Proof

/-! ### Encoding undoes decoding -/

/-- A word whose reserved bits are 0 is the command word of its own opcode, channel and immediate (R71). -/
theorem commandWord_fields {w : Word} (hrsv : rsvField w = 0#2) :
    commandWord (opField w).toNat (chField w).toNat (immField w).toNat = w := by
  have hword := commandWord_toNat (opField w).isLt (chField w).isLt (immField w).isLt
  have hzero : w.toNat / 2 ^ 24 % 4 = 0 := by rw [← rsvField_toNat, hrsv]; rfl
  rw [BitVec.toNat_eq, hword, opField_toNat, chField_toNat, immField_toNat]
  omega

/-- With `imm[23:8]` at 0 the immediate is its low byte (R74). -/
theorem immField_eq_immLowField {w : Word} (hhigh : immHighField w = 0#16) :
    (immField w).toNat = (immLowField w).toNat := by
  have hzero : w.toNat / 2 ^ 8 % 2 ^ 16 = 0 := by rw [← immHighField_toNat, hhigh]; rfl
  rw [immField_toNat, immLowField_toNat]
  omega

theorem encode_of_decode {w : Word} {i : Instr} (h : decode w = .ok i) : encode i = some w := by
  obtain ⟨hrsv, hcases⟩ := decode_eq_ok.1 h
  have hword := commandWord_fields hrsv
  rcases hcases with ⟨hop, rfl⟩ | ⟨hop, hhigh, rfl⟩ | ⟨hop, hch, himm, rfl⟩ | ⟨hop, hch, rfl⟩
  · rw [hop] at hword
    exact (encode_wrfreq (chField w).isLt (immField w).isLt).trans (congrArg some hword)
  · rw [hop, immField_eq_immLowField hhigh] at hword
    exact (encode_wrctrl (chField w).isLt (immLowField w).isLt).trans (congrArg some hword)
  · rw [hop, hch, himm] at hword
    exact congrArg some hword
  · rw [hop, hch] at hword
    exact (encode_render (immField w).isLt).trans (congrArg some hword)

/-! ### Decoding undoes encoding -/

theorem exists_encode_decode {i : Instr} (h : i.wellFormed = true) : ∃ w, encode i = some w ∧ decode w = .ok i := by
  cases i with
  | wrfreq ch v =>
    simp only [Instr.wellFormed, channelOk, imm24Ok, Bool.and_eq_true, decide_eq_true_eq] at h
    obtain ⟨⟨hch0, hch⟩, hv0, hv⟩ := h
    lift ch to Nat using hch0
    lift v to Nat using hv0
    exact ⟨_, encode_wrfreq (by omega) (by omega), decode_commandWord_wrfreq (by omega) (by omega)⟩
  | wrctrl ch v =>
    simp only [Instr.wellFormed, channelOk, controlOk, Bool.and_eq_true, decide_eq_true_eq] at h
    obtain ⟨⟨hch0, hch⟩, hv0, hv⟩ := h
    lift ch to Nat using hch0
    lift v to Nat using hv0
    exact ⟨_, encode_wrctrl (by omega) (by omega), decode_commandWord_wrctrl (by omega) (by omega)⟩
  | step => exact ⟨0x30000000#32, by decide, by decide⟩
  | render n =>
    simp only [Instr.wellFormed, imm24Ok, decide_eq_true_eq] at h
    obtain ⟨hn0, hn⟩ := h
    lift n to Nat using hn0
    exact ⟨_, encode_render (by omega), decode_commandWord_render (by omega)⟩

/-! ### The obligations -/

/-- Settles O1: what the decoder accepts are the four accepting lines of the pseudocode, the fields read as numbers; a word it does
not accept passes none of the pseudocode's tests. -/
theorem decodeEncodeAgree : Obligations.DecodeEncodeAgree := by
  unfold Obligations.DecodeEncodeAgree
  refine ⟨fun w => ?pseudocode, fun i => exists_encode_decode, fun w i => encode_of_decode⟩
  have hhigh : w.toNat % 2 ^ 24 / 2 ^ 8 = w.toNat / 2 ^ 8 % 2 ^ 16 := by omega
  have hlow : w.toNat % 2 ^ 24 % 2 ^ 8 = w.toNat % 256 := by omega
  simp only [hhigh, hlow]
  rw [← opField_toNat, ← chField_toNat, ← rsvField_toNat, ← immField_toNat, ← immHighField_toNat, ← immLowField_toNat]
  cases h : decode w with
  | ok i =>
    obtain ⟨hrsv, ⟨hop, rfl⟩ | ⟨hop, himm, rfl⟩ | ⟨hop, hch, himm, rfl⟩ | ⟨hop, hch, rfl⟩⟩ := decode_eq_ok.1 h
    · simp [hrsv, hop, Except.toOption]
    · simp [hrsv, hop, himm, Except.toOption]
    · simp [hrsv, hop, hch, himm, Except.toOption]
    · simp [hrsv, hop, hch, Except.toOption]
  | error e =>
    have hno := exists_decode_eq_error.1 ⟨e, h⟩
    rw [exists_decode_eq_ok] at hno
    simp only [BitVec.toNat_eq, BitVec.toNat_ofNat] at hno
    split_ifs
    · rfl
    · omega
    · omega
    · omega
    · omega
    · rfl

/-- Settles O6: each word and each command is evaluated. -/
theorem workedWords : Obligations.WorkedWords := by
  unfold Obligations.WorkedWords
  decide

end Sys2Proof
end

section
/-!
PROOFS. The invariant of 10_state section 5: its part on the generator and its part on the results, what keeps each, and O10, O11
and O12.
-/

namespace Sys2Proof.Machine

/-! ### The generator's part of the invariant -/

/-- What the invariant says of the state elements other than `faulted`: rates, noise register, phases and outputs. -/
structure GeneratorInv (s : State) : Prop where
  clockRate : 1 ≤ s.clockRate
  sampleRate : 1 ≤ s.sampleRate
  lfsrState : s.lfsrState ≠ 0#17
  phase : ∀ c : Chan, 0 ≤ phase s c
  out : (∀ c : Chan, out s c = none) ∨ (∀ c : Chan, out s c ≠ none)

/-- What the invariant says of the results: each in range, and a fault among them exactly if `faulted` is set. -/
structure ResultsInv (s : State) : Prop where
  inRange : ∀ r ∈ s.results, resultInRange r = true
  faulted : s.faulted = s.results.any isFaultResult

theorem State.inv_iff {s : State} : s.Inv ↔ GeneratorInv s ∧ ResultsInv s :=
  ⟨fun ⟨hclock, hrate, hlfsr, hphase, hout, hres, hfault⟩ => ⟨⟨hclock, hrate, hlfsr, hphase, hout⟩, ⟨hres, hfault⟩⟩,
    fun ⟨hg, hr⟩ => ⟨hg.clockRate, hg.sampleRate, hg.lfsrState, hg.phase, hg.out, hr.inRange, hr.faulted⟩⟩

theorem generatorInv_fresh {clockRate sampleRate : Nat} (hc : 1 ≤ clockRate) (hs : 1 ≤ sampleRate) (cap : Option Nat) :
    GeneratorInv (State.fresh clockRate sampleRate cap) where
  clockRate := hc
  sampleRate := hs
  lfsrState := (by decide : Config.lfsrSeed ≠ 0#17)
  phase c := (phase_fresh _ _ _ c).ge
  out := .inl (out_fresh _ _ _)

theorem phaseSum_nonneg {s : State} {c : Chan} (h : 0 ≤ phase s c) : 0 ≤ phaseSum s c :=
  add_nonneg h (phaseIncrement_nonneg s c)

theorem GeneratorInv.sampleStep {s : State} (h : GeneratorInv s) : GeneratorInv (sampleStep s).1 where
  clockRate := by simpa using h.clockRate
  sampleRate := by simpa using h.sampleRate
  lfsrState := by simpa using noiseNext_iterate_ne_zero h.lfsrState _
  phase c := by simpa using wrapPhase_nonneg (phaseSum_nonneg (h.phase c))
  out := .inr (by simp)

theorem GeneratorInv.sampleSteps {s : State} (h : GeneratorInv s) (n : Nat) : GeneratorInv (sampleSteps n s) :=
  sampleSteps_induction (fun _ => GeneratorInv.sampleStep) n h

/-- Registers, `faulted` and the host's side are no part of what `GeneratorInv` speaks of. -/
theorem GeneratorInv.congr {s t : State} (h : GeneratorInv s) (hclock : t.clockRate = s.clockRate)
    (hrate : t.sampleRate = s.sampleRate) (hlfsr : t.lfsrState = s.lfsrState)
    (hphase : t.channelPhase = s.channelPhase) (hout : t.channelOutput = s.channelOutput) : GeneratorInv t where
  clockRate := hclock ▸ h.clockRate
  sampleRate := hrate ▸ h.sampleRate
  lfsrState := hlfsr ▸ h.lfsrState
  phase := by simpa only [Machine.phase, hphase] using h.phase
  out := by simpa only [Machine.out, hout] using h.out

/-! ### What each effect keeps -/

theorem Effect.generatorInv {s t : State} (he : Effect s t) (h : GeneratorInv s) : GeneratorInv t := by
  cases he with
  | wroteFreq c n => exact h.congr rfl rfl rfl rfl rfl
  | wroteCtrl c b => exact h.congr rfl rfl rfl rfl rfl
  | stepped => exact h.sampleStep.congr rfl rfl rfl rfl rfl
  | rendered n hn => exact (h.sampleSteps n).congr rfl rfl rfl rfl rfl
  | faulted r hr => exact h.congr rfl rfl rfl rfl rfl
  | exhausted n k hk hn =>
    have hdraw : GeneratorInv (takeDraw s) := h.congr rfl rfl rfl rfl rfl
    exact (hdraw.sampleSteps k).congr rfl rfl rfl rfl rfl

theorem resultInRange_buffer (n : Nat) (s : State) : resultInRange (.buffer ((mixes n s).map quantSample)) = true := by
  simp only [resultInRange, List.all_map, List.all_eq_true, Function.comp_apply, decide_eq_true_eq]
  intro M hM
  obtain ⟨hlow, hhigh⟩ := mem_mixes_range hM
  rw [quantSample_toInt hlow hhigh]
  exact quant_mem hlow hhigh

/-- A command of a live engine delivers one result, which is in range and is a fault exactly if the command sets `faulted`. -/
theorem Effect.exists_result {s t : State} (he : Effect s t) (hs : Live s) :
    ∃ r, t.results = s.results ++ [r] ∧ resultInRange r = true ∧ t.faulted = isFaultResult r := by
  cases he with
  | wroteFreq c n => exact ⟨_, rfl, rfl, hs⟩
  | wroteCtrl c b => exact ⟨_, rfl, rfl, hs⟩
  | stepped => exact ⟨.mix (stepMix s), by simp, decide_eq_true (stepMix_range s), (sampleStep_faulted s).trans hs⟩
  | rendered n hn => 
    exact ⟨.buffer ((mixes n s).map quantSample), by simp, resultInRange_buffer n s, (sampleSteps_faulted n s).trans hs⟩
  | faulted r hr => exact ⟨_, rfl, rfl, rfl⟩
  | exhausted n k hk hn => exact ⟨.fault (.resourceExhausted n), by simp, rfl, rfl⟩

theorem Effect.resultsInv {s t : State} (he : Effect s t) (hs : Live s) (h : ResultsInv s) : ResultsInv t := by
  obtain ⟨r, hres, hrange, hfault⟩ := he.exists_result hs
  have hold : s.results.any isFaultResult = false := h.faulted ▸ hs
  constructor
  case inRange =>
    rw [hres, List.forall_mem_append, List.forall_mem_singleton]
    exact ⟨h.inRange, hrange⟩
  case faulted => simp [hres, hfault, hold]

/-! ### The obligations, and what their proofs say of constructed and reachable states -/

theorem construct_inv {cr sr : Option Int} {cap : Option Nat} {s : State} (h : construct cr sr cap = .next s) : s.Inv := by
  obtain ⟨hcr, hsr, rfl⟩ := construct_eq_next.1 h
  exact State.inv_iff.2 ⟨generatorInv_fresh (by omega) (by omega) cap, ⟨by simp [State.fresh], rfl⟩⟩

/-- Settles O10: the seed is not 0, the phases are 0, the outputs have no value and there is no result. -/
theorem constructedStatesMeetInvariant : Obligations.ConstructedStatesMeetInvariant := by
  unfold Obligations.ConstructedStatesMeetInvariant
  exact ⟨construct_inv construct_none_eq_reset, fun _ _ _ _ => construct_inv⟩

/-- Settles O11: an idle step changes nothing, and every other step is the effect of one command, which keeps both parts of the
invariant. -/
theorem stepKeepsInvariant : Obligations.StepKeepsInvariant := by
  unfold Obligations.StepKeepsInvariant
  intro s t hinv hstep
  obtain ⟨hs, ⟨-, rfl⟩ | ⟨cmd, rest, -, -, he⟩⟩ := step_effect hstep
  · exact hinv
  · have hport : (setPort rest s).Inv := hinv
    obtain ⟨hgen, hres⟩ := State.inv_iff.1 hport
    exact State.inv_iff.2 ⟨he.generatorInv hgen, he.resultsInv hs hres⟩

theorem Reachable.inv {s : State} (h : Reachable s) : s.Inv := by
  induction h with
  | constructed cr sr cap hc => exact construct_inv hc
  | issued cmd _ ih => exact ih
  | stepped _ hstep ih => exact stepKeepsInvariant _ _ ih hstep

/-- The mix is in [-1, 1] because its numerator is in -60..60 (R33, R117). -/
theorem mixValue_mem {M : Int} (hlow : -60 ≤ M) (hhigh : M ≤ 60) : -1 ≤ mixValue M ∧ mixValue M ≤ 1 := by
  have hlow' : (-60 : Rat) ≤ M := by exact_mod_cast hlow
  have hhigh' : (M : Rat) ≤ 60 := by exact_mod_cast hhigh
  unfold mixValue
  constructor <;> linarith

/-- Settles O12, by induction on how the state is reached; a mix the host has received is a result in range. -/
theorem reachableStatesMeetInvariant : Obligations.ReachableStatesMeetInvariant := by
  unfold Obligations.ReachableStatesMeetInvariant
  intro s h
  obtain ⟨hgen, hres⟩ := State.inv_iff.1 h.inv
  refine ⟨h.inv, hgen.lfsrState, hgen.phase, fun M hM => ?_⟩
  obtain ⟨hlow, hhigh⟩ := of_decide_eq_true (hres.inRange _ hM)
  exact mixValue_mem hlow hhigh

end Sys2Proof.Machine
end

section
/-!
PROOFS. Instances side by side share nothing (60_exceptions section 4), and O9.
-/

namespace Sys2Proof.Machine

/-- A next list of engines comes from CONSTRUCT's fresh state, put at the end. -/
theorem addInstance_eq_next {cr sr : Option Int} {cap : Option Nat} {all all' : Instances}
    (h : addInstance cr sr cap all = .next all') : ∃ s, construct cr sr cap = .next s ∧ all' = all ++ [s] := by
  unfold addInstance at h
  split at h <;> cases h
  exact ⟨_, ‹_›, rfl⟩

/-- A next list of engines comes from the step of the engine named, put in its place. -/
theorem stepInstance_eq_next {k : Nat} {all all' : Instances} (h : stepInstance k all = some (.next all')) :
    ∃ s t, all[k]? = some s ∧ step s = .next t ∧ all' = all.set k t := by
  unfold stepInstance at h
  split at h
  · cases h
  · simp only [Option.some.injEq] at h
    split at h <;> cases h
    exact ⟨_, _, ‹_›, ‹_›, rfl⟩

/-- Settles O9: a list with one element more at its end, or with one element replaced, has every other element where it was. -/
theorem instancesAreIndependent : Obligations.InstancesAreIndependent := by
  unfold Obligations.InstancesAreIndependent
  refine ⟨fun all all' cr sr cap h => ?constructed, fun all all' k h => ?stepped⟩
  case constructed =>
    obtain ⟨s, hs, rfl⟩ := addInstance_eq_next h
    exact ⟨s, hs, List.getElem?_concat_length, List.length_append, fun j hj => List.getElem?_append_left hj⟩
  case stepped =>
    obtain ⟨s, t, hs, ht, rfl⟩ := stepInstance_eq_next h
    obtain ⟨hk, -⟩ := List.getElem?_eq_some_iff.1 hs
    exact ⟨s, t, hs, ht, List.getElem?_set_self hk, fun j hj => List.getElem?_set_ne hj.symm⟩

end Sys2Proof.Machine
end

section
/-!
PROOFS. NSTEP bit by bit and its maximal period (41_noise_lfsr R100, R104): NSTEP is linear over XOR, so its powers can be squared
on one value; the period 131071 is prime; and O19 and O20.
-/

namespace Sys2Proof.Machine

/-! ### The bits of NSTEP, and its linearity -/

/-- The taps are at bits 16 and 13 (R101). -/
theorem getLsbD_lfsrTapMask (i : Nat) : lfsrTapMask.getLsbD i = decide (i = 13 ∨ i = 16) := by
  rcases Nat.lt_or_ge i 17 with hi | hi
  · exact (by decide : ∀ j < 17, lfsrTapMask.getLsbD j = decide (j = 13 ∨ j = 16)) i hi
  · rw [BitVec.getLsbD_of_ge _ _ hi, eq_comm, decide_eq_false_iff_not]
    omega

/-- NSTEP shifts every bit down by one and XORs the bit shifted out into the two taps (R100). -/
theorem getLsbD_noiseNext (l : Lfsr) (i : Nat) :
    (noiseNext l).getLsbD i = (l.getLsbD (i + 1) ^^ (noiseBit l && decide (i = 13 ∨ i = 16))) := by
  rw [← getLsbD_lfsrTapMask]
  unfold noiseNext
  cases noiseBit l <;> simp [Nat.add_comm]

theorem noiseNext_xor (a b : Lfsr) : noiseNext (a ^^^ b) = noiseNext a ^^^ noiseNext b := by
  refine BitVec.eq_of_getLsbD_eq fun i _ => ?_
  have hbit : noiseBit (a ^^^ b) = (noiseBit a ^^ noiseBit b) := BitVec.getLsbD_xor
  rw [BitVec.getLsbD_xor, getLsbD_noiseNext, getLsbD_noiseNext, getLsbD_noiseNext, BitVec.getLsbD_xor, hbit,
    Bool.and_xor_distrib_right, Bool.xor_assoc, Bool.xor_assoc, Bool.xor_left_comm (b.getLsbD (i + 1))]

theorem noiseNext_iterate_xor (k : Nat) (a b : Lfsr) : noiseNext^[k] (a ^^^ b) = noiseNext^[k] a ^^^ noiseNext^[k] b :=
  Function.Semiconj₂.iterate noiseNext_xor k a b

/-! ### Every value is a sum of NSTEP iterates of one value -/

/-- The value with bit 16 alone set: NSTEP moves it through all seventeen bits. -/
def topBit : Lfsr := 0x10000#17

/-- The XOR of those of `v`, NSTEP `v`, ..., NSTEP^16 `v` that the bits of `w` select, bit 16 selecting `v`. -/
def combine (w v : Lfsr) : Lfsr :=
  (List.range 17).foldr (fun j acc => (if w.getLsbD (16 - j) then noiseNext^[j] v else 0#17) ^^^ acc) 0#17

theorem foldr_and_xor (w : Lfsr) (f : Nat → Lfsr) (js : List Nat) :
    js.foldr (fun j acc => (w &&& f j) ^^^ acc) 0#17 = w &&& js.foldr (fun j acc => f j ^^^ acc) 0#17 := by
  induction js with
  | nil => simp
  | cons j js ih =>
    rw [List.foldr_cons, List.foldr_cons, ih]
    exact BitVec.eq_of_getLsbD_eq fun i _ => by simp [Bool.and_xor_distrib_left]

theorem combine_topBit (w : Lfsr) : combine w topBit = w := by
  have hbasis : ∀ j < 17, noiseNext^[j] topBit = BitVec.twoPow 17 (16 - j) := by decide
  have hall : (List.range 17).foldr (fun j acc => noiseNext^[j] topBit ^^^ acc) 0#17 = BitVec.allOnes 17 := by decide
  calc combine w topBit
      = (List.range 17).foldr (fun j acc => (w &&& noiseNext^[j] topBit) ^^^ acc) 0#17 := by
        refine List.foldr_ext _ _ _ fun j hj acc => ?_
        rw [hbasis j (List.mem_range.1 hj), BitVec.and_twoPow]
    _ = w := by rw [foldr_and_xor, hall, BitVec.and_allOnes]

/-- NSTEP iterates pass through a combination, which is a sum of NSTEP iterates. -/
theorem noiseNext_iterate_combine (k : Nat) (w v : Lfsr) : noiseNext^[k] (combine w v) = combine w (noiseNext^[k] v) := by
  unfold combine
  induction List.range 17 with
  | nil => exact Function.iterate_fixed noiseNext_zero k
  | cons j js ih =>
    rw [List.foldr_cons, List.foldr_cons, noiseNext_iterate_xor, ih]
    split
    · rw [← Function.iterate_add_apply, Nat.add_comm, Function.iterate_add_apply]
    · rw [Function.iterate_fixed noiseNext_zero]

/-- Squaring: where NSTEP^k takes bit 16 says where NSTEP^(2k) takes it. -/
theorem noiseNext_iterate_two_mul (k : Nat) :
    noiseNext^[2 * k] topBit = combine (noiseNext^[k] topBit) (noiseNext^[k] topBit) := by
  rw [← noiseNext_iterate_combine, combine_topBit, ← Function.iterate_add_apply, two_mul]

theorem noiseNext_iterate_two_pow (k : Nat) :
    noiseNext^[2 ^ k] topBit = (fun w => combine w w)^[k] (noiseNext topBit) := by
  induction k with
  | zero => rfl
  | succ k ih => rw [pow_succ', noiseNext_iterate_two_mul, ih, Function.iterate_succ_apply']

/-- NSTEP^(2^17) is NSTEP: seventeen squarings take bit 16 there, and it generates every value. -/
theorem noiseNext_iterate_131072 (l : Lfsr) : noiseNext^[131072] l = noiseNext l := by
  have hsquare : (fun w => combine w w)^[17] (noiseNext topBit) = noiseNext topBit := by decide +kernel
  have htop : noiseNext^[131072] topBit = noiseNext^[1] topBit := (noiseNext_iterate_two_pow 17).trans hsquare
  calc noiseNext^[131072] l = combine l (noiseNext^[131072] topBit) := by rw [← noiseNext_iterate_combine, combine_topBit]
    _ = noiseNext^[1] l := by rw [htop, ← noiseNext_iterate_combine, combine_topBit]

/-! ### The period -/

theorem noiseNext_isPeriodicPt (l : Lfsr) : Function.IsPeriodicPt noiseNext 131071 l :=
  noiseNext_injective (by rw [← Function.iterate_succ_apply' noiseNext 131071, noiseNext_iterate_131072])

/-- NSTEP keeps no value but 0: a kept value has the bits 13 to 0 all equal to bit 13, which the taps make 0, so nothing is XORed
in. -/
theorem eq_zero_of_noiseNext_eq {l : Lfsr} (h : noiseNext l = l) : l = 0#17 := by
  have hbit (i : Nat) : l.getLsbD i = (l.getLsbD (i + 1) ^^ (noiseBit l && decide (i = 13 ∨ i = 16))) := by
    rw [← getLsbD_noiseNext, h]
  have hlow (i : Nat) (hi : i ≤ 13) : l.getLsbD i = noiseBit l := by
    induction i with
    | zero => rfl
    | succ i ih =>
      have htap : ¬(i = 13 ∨ i = 16) := by omega
      rw [← ih (by omega), hbit i, decide_eq_false htap, Bool.and_false, Bool.xor_false]
  have hzero : noiseBit l = false := by
    have h16 : l.getLsbD 16 = noiseBit l := by rw [← noiseNext_top, h]
    have h14 : l.getLsbD 14 = noiseBit l := by rw [hbit 14, hbit 15, h16]; simp
    rw [← hlow 13 le_rfl, hbit 13, h14]
    simp
  refine BitVec.eq_of_getLsbD_eq fun i _ => ?_
  induction i with
  | zero => exact hzero
  | succ i ih => simpa [hbit i, hzero] using ih (by omega)

theorem minimalPeriod_noiseNext {l : Lfsr} (h : l ≠ 0#17) : Function.minimalPeriod noiseNext l = 131071 := by
  have : Fact (Nat.Prime 131071) := ⟨by norm_num⟩
  exact Function.minimalPeriod_eq_prime (noiseNext_isPeriodicPt l) fun hfix => h (eq_zero_of_noiseNext_eq hfix)

/-- Within one period no value comes twice. -/
theorem noiseNext_iterate_inj {l : Lfsr} (h : l ≠ 0#17) {j k : Nat} (hj : j < 131071) (hk : k < 131071) :
    noiseNext^[j] l = noiseNext^[k] l ↔ j = k := by
  rw [← minimalPeriod_noiseNext h] at hj hk
  exact Function.iterate_eq_iterate_iff_of_lt_minimalPeriod hj hk

theorem toNat_mem_of_ne_zero {l : Lfsr} (h : l ≠ 0#17) : l.toNat ∈ List.range' 1 131071 := by
  have hne : l.toNat ≠ 0 := BitVec.toNat_ne_iff_ne.2 h
  have hlt := l.isLt
  rw [List.mem_range'_1]
  omega

/-- One period from the seed is a rearrangement of the nonzero 17-bit numbers (R104 a). -/
theorem seed_period_perm :
    ((List.range 131071).map fun k => (noiseNext^[k] 0x1FFFF#17).toNat).Perm (List.range' 1 131071) := by
  have hseed : (0x1FFFF#17 : Lfsr) ≠ 0#17 := by decide
  refine (List.subperm_of_subset ?nodup ?subset).perm_of_length_le (by simp)
  case nodup =>
    refine List.Nodup.map_on (fun j hj k hk e => ?_) List.nodup_range
    exact (noiseNext_iterate_inj hseed (List.mem_range.1 hj) (List.mem_range.1 hk)).1 (BitVec.eq_of_toNat_eq e)
  case subset =>
    intro x hx
    obtain ⟨k, -, rfl⟩ := List.mem_map.1 hx
    exact toNat_mem_of_ne_zero (noiseNext_iterate_ne_zero hseed k)

theorem exists_iterate_seed {l : Lfsr} (h : l ≠ 0#17) : ∃ k < 131071, noiseNext^[k] 0x1FFFF#17 = l := by
  have hmem : l.toNat ∈ List.range' 1 131071 := toNat_mem_of_ne_zero h
  obtain ⟨k, hk, e⟩ := List.mem_map.1 (seed_period_perm.mem_iff.2 hmem)
  exact ⟨k, List.mem_range.1 hk, BitVec.eq_of_toNat_eq e⟩

/-- A rearrangement leaves the number of values with a property as it is. -/
theorem countP_seed_period (p : Nat → Bool) :
    (List.range 131071).countP (fun k => p (noiseNext^[k] 0x1FFFF#17).toNat) = (List.range' 1 131071).countP p := by
  rw [← seed_period_perm.countP_eq, List.countP_map]
  rfl

/-- Of the numbers 1 to 2 * n + 1 one more is odd than even. -/
theorem countP_testBit_zero (n : Nat) : (List.range' 1 (2 * n + 1)).countP (·.testBit 0) = n + 1 := by
  induction n with
  | zero => rfl
  | succ n ih =>
    rw [show 2 * (n + 1) + 1 = 2 * n + 1 + 1 + 1 by ring, List.range'_1_concat, List.range'_1_concat,
      List.countP_append, List.countP_append, ih]
    have heven : (1 + (2 * n + 1)) % 2 = 0 := by omega
    have hodd : (1 + (2 * n + 2)) % 2 = 1 := by omega
    simp [Nat.testBit_zero, heven, hodd]

theorem countP_not {α : Type} (p : α → Bool) (l : List α) : l.countP (fun a => !p a) = l.length - l.countP p := by
  rw [l.length_eq_countP_add_countP p]
  simp

/-! ### The obligations -/

/-- Settles O19: the bits are those of the shift and the two taps; the predecessor of the seed is 131070 NSTEPs after it because one
more NSTEP closes the period. -/
theorem nstepBits : Obligations.NstepBits := by
  unfold Obligations.NstepBits
  have hseed (l : Lfsr) : noiseNext l = 0x1FFFF#17 ↔ l = 0x1BFFF#17 := noiseNext_injective.eq_iff' (by decide)
  refine ⟨fun l => ⟨rfl, noiseNext_top l, ?bit15, ?bit14, ?bit13, fun i hi => ?low⟩, fun s => ⟨rfl, rfl, rfl⟩, by decide,
    by decide, by decide, by decide, by decide, hseed, ?predecessor⟩
  case bit15 => rw [getLsbD_noiseNext]; simp
  case bit14 => rw [getLsbD_noiseNext]; simp
  case bit13 => rw [getLsbD_noiseNext, noiseBit]; simp
  case low =>
    have htap : ¬(i = 13 ∨ i = 16) := by omega
    rw [getLsbD_noiseNext, decide_eq_false htap, Bool.and_false, Bool.xor_false]
  case predecessor =>
    rw [← hseed, ← Function.iterate_succ_apply' noiseNext 131070]
    exact noiseNext_isPeriodicPt _

/-- Settles O20: the period of a nonzero value divides the prime 131071 and is not 1; so one period from the seed passes through
131071 different nonzero values, which is all of them, and the returned bit is 1 for the odd ones. -/
theorem lfsrMaximalPeriod : Obligations.LfsrMaximalPeriod := by
  unfold Obligations.LfsrMaximalPeriod
  have hseed : (0x1FFFF#17 : Lfsr) ≠ 0#17 := by decide
  have hones : (List.range 131071).countP (fun k => noiseBit (noiseNext^[k] 0x1FFFF#17)) = 65536 :=
    (countP_seed_period (·.testBit 0)).trans (countP_testBit_zero 65535)
  refine ⟨noiseNext_isPeriodicPt _, fun k h0 hk e => ?notBefore, fun l hl => ?once, ?ones, ?zeros⟩
  case notBefore => exact h0.ne' ((noiseNext_iterate_inj hseed hk (by decide)).1 e)
  case once =>
    obtain ⟨k, hk, rfl⟩ := exists_iterate_seed hl
    exact ⟨k, ⟨hk, rfl⟩, fun j hj e => (noiseNext_iterate_inj hseed hj hk).1 e⟩
  case ones => exact hones
  case zeros => rw [countP_not, hones, List.length_range]

end Sys2Proof.Machine
end

section
/-!
PROOFS. Register writes (40_register_writes; 20_memory sections 1 and 5): the two commands as `RegWrite` of a register number, what
two writes do to each other, what the next STEP makes of one, and O13, O14, O16, O17 and O18.
-/

namespace Sys2Proof.Machine

/-! ### The two commands -/

/-- Settles O13: the operands name a channel and a natural number, and the command writes that divider alone. -/
theorem wrfreqResult : Obligations.WrfreqResult := by
  unfold Obligations.WrfreqResult
  intro s ch v hs hch0 hch4 hv
  obtain ⟨c, rfl⟩ := exists_chan_of_range ⟨hch0, hch4⟩
  lift v to Nat using hv
  refine ⟨_, exec_wrfreq hs c v, fun d => ?_, rfl, rfl⟩
  rw [freq_deliver, freq_writeFreq, apply_ite Nat.cast]
  simp only [Nat.cast_inj, Fin.val_inj, eq_comm]

/-- An operand in range names a control byte (R152). -/
theorem exists_byte_of_range {v : Int} (h : 0 ≤ v ∧ v < 256) : ∃ b : Byte, v = (b.toNat : Int) :=
  ⟨_, controlOf_eq_some.1 (if_pos h)⟩

/-- Settles O14: the operands name a channel and a byte, and the command writes that control byte alone. -/
theorem wrctrlResult : Obligations.WrctrlResult := by
  unfold Obligations.WrctrlResult
  intro s ch v hs hch0 hch4 hv0 hv
  obtain ⟨c, rfl⟩ := exists_chan_of_range ⟨hch0, hch4⟩
  obtain ⟨b, rfl⟩ := exists_byte_of_range ⟨hv0, hv⟩
  refine ⟨_, exec_wrctrl hs c b, fun d => ?_, rfl, rfl⟩
  rw [ctrl_deliver, ctrl_writeCtrl, apply_ite BitVec.toNat, apply_ite Nat.cast]
  simp only [Nat.cast_inj, Fin.val_inj, eq_comm]

/-! ### Register numbers -/

theorem regWrite_faulted (r : Fin 8) (v : Nat) (s : State) : (regWrite r v s).faulted = s.faulted := by
  unfold regWrite
  split <;> rfl

theorem regWrite_results (r : Fin 8) (v : Nat) (s : State) : (regWrite r v s).results = s.results := by
  unfold regWrite
  split <;> rfl

/-- The channel a register number belongs to (R51). -/
def registerChan (r : Fin 8) : Chan := ⟨r.val / 2, by omega⟩

theorem writeRegister_of_even {r : Fin 8} (h : r.val % 2 = 0) (v : Nat) :
    writeRegister r v = .wrfreq ((registerChan r).val : Int) v := if_pos h

theorem writeRegister_of_odd {r : Fin 8} (h : r.val % 2 = 1) (v : Nat) :
    writeRegister r v = .wrctrl ((registerChan r).val : Int) v := if_neg (by omega)

theorem regWrite_of_even {r : Fin 8} (h : r.val % 2 = 0) (v : Nat) (s : State) :
    regWrite r v s = writeFreq (registerChan r) v s := if_pos h

theorem regWrite_of_odd {r : Fin 8} (h : r.val % 2 = 1) (v : Nat) (s : State) :
    regWrite r v s = writeCtrl (registerChan r) (BitVec.ofNat 8 v) s := by
  have hchan : (⟨(r.val - 1) / 2, by omega⟩ : Chan) = registerChan r := Fin.ext (by simp only [registerChan]; omega)
  exact (if_neg (by omega)).trans (by rw [hchan])

/-- A value of a control register is a byte, stored whole. -/
theorem RegisterValue.toNat_ofNat {r : Fin 8} {v : Nat} (hv : RegisterValue r v) (h : r.val % 2 = 1) :
    (BitVec.ofNat 8 v).toNat = v := by
  rcases hv with hv | hv
  · omega
  · exact Nat.mod_eq_of_lt hv

/-- The command that writes a register does what `RegWrite` of that register does, and returns nothing (R51). -/
theorem exec_writeRegister {s : State} {r : Fin 8} {v : Nat} (hs : Live s) (hv : RegisterValue r v) :
    exec (writeRegister r v) s = .next (deliver .nothing (regWrite r v s)) := by
  rcases Nat.mod_two_eq_zero_or_one r.val with h | h
  · rw [writeRegister_of_even h, regWrite_of_even h, exec_wrfreq hs]
  · have hexec := exec_wrctrl hs (registerChan r) (BitVec.ofNat 8 v)
    rwa [hv.toNat_ofNat h, ← writeRegister_of_odd h, ← regWrite_of_odd h] at hexec

/-- Settles O16: the command's effect is `RegWrite`, whose register is read back by its channel and its parity. -/
theorem registerNumbersNameRegisters : Obligations.RegisterNumbersNameRegisters := by
  unfold Obligations.RegisterNumbersNameRegisters
  intro s r v hs hv
  refine ⟨_, exec_writeRegister hs hv, ?results, rfl, ?number, fun h => ?divider, fun h => ?control⟩
  case results => rw [deliver_results, regWrite_results]
  case number =>
    simp only [registerNumber, beq_iff_eq]
    split <;> omega
  case divider =>
    rw [regWrite_of_even h, freq_deliver, freq_writeFreq]
    exact if_pos rfl
  case control =>
    rw [regWrite_of_odd h, ctrl_deliver, ctrl_writeCtrl, registerChan, if_pos rfl, hv.toNat_ofNat h]

/-! ### Two writes -/

theorem writeFreq_comm {c d : Chan} (h : c ≠ d) (v w : Nat) (s : State) :
    writeFreq c v (writeFreq d w s) = writeFreq d w (writeFreq c v s) := by
  simp only [writeFreq, Vector.set_comm _ _ (Fin.val_ne_of_ne h)]

theorem writeCtrl_comm {c d : Chan} (h : c ≠ d) (a b : Byte) (s : State) :
    writeCtrl c a (writeCtrl d b s) = writeCtrl d b (writeCtrl c a s) := by
  simp only [writeCtrl, Vector.set_comm _ _ (Fin.val_ne_of_ne h)]

theorem regWrite_comm {r r' : Fin 8} (h : r ≠ r') (v v' : Nat) (s : State) :
    regWrite r v (regWrite r' v' s) = regWrite r' v' (regWrite r v s) := by
  have hne := Fin.val_ne_of_ne h
  rcases Nat.mod_two_eq_zero_or_one r.val with hr | hr <;> rcases Nat.mod_two_eq_zero_or_one r'.val with hr' | hr'
  · simp only [regWrite_of_even hr, regWrite_of_even hr']
    exact writeFreq_comm (Fin.ne_of_val_ne (by simp only [registerChan]; omega)) v v' s
  · simp only [regWrite_of_even hr, regWrite_of_odd hr']
    rfl
  · simp only [regWrite_of_odd hr, regWrite_of_even hr']
    rfl
  · simp only [regWrite_of_odd hr, regWrite_of_odd hr']
    exact writeCtrl_comm (Fin.ne_of_val_ne (by simp only [registerChan]; omega)) _ _ s

theorem regWrite_regWrite_same (r : Fin 8) (v v' : Nat) (s : State) :
    regWrite r v' (regWrite r v s) = regWrite r v' s := by
  rcases Nat.mod_two_eq_zero_or_one r.val with h | h
  · simp [regWrite_of_even h, writeFreq]
  · simp [regWrite_of_odd h, writeCtrl]

/-- A register write neither reads nor writes what the host has received. -/
theorem regWrite_deliver (r : Fin 8) (v : Nat) (q : Result) (s : State) :
    regWrite r v (deliver q s) = deliver q (regWrite r v s) := by
  unfold regWrite
  split <;> rfl

theorem serveAll_two_writes {s : State} {r r' : Fin 8} {v v' : Nat} (hs : Live s) (hv : RegisterValue r v)
    (hv' : RegisterValue r' v') :
    serveAll [.call (writeRegister r v), .call (writeRegister r' v')] s =
      .next (deliver .nothing (deliver .nothing (regWrite r' v' (regWrite r v s)))) := by
  have hlive : Live (deliver .nothing (regWrite r v s)) := (regWrite_faulted r v s).trans hs
  rw [serveAll_call_next (exec_writeRegister hs hv), serveAll_call_next (exec_writeRegister hlive hv'), serveAll_nil,
    regWrite_deliver]

/-- Settles O17: two writes are two `RegWrite`s, which commute on different registers; on one register the later covers the
earlier. -/
theorem registerWritesCommute : Obligations.RegisterWritesCommute := by
  unfold Obligations.RegisterWritesCommute
  intro s r r' v v' hs hv hv'
  refine ⟨fun h => ⟨_, serveAll_two_writes hs hv hv', ?_⟩, ?_⟩
  · rw [serveAll_two_writes hs hv' hv, regWrite_comm h]
  · rintro rfl
    refine ⟨_, _, serveAll_two_writes hs hv hv', exec_writeRegister hs hv', ?_⟩
    rw [regWrite_regWrite_same]
    rfl

/-! ### The STEP after a write -/

/-- `VOL` is the low four bits (R26). -/
theorem volume_eq_mod (b : Byte) : volume b = b.toNat % 16 := by
  rw [volume, BitVec.toNat_and]
  exact Nat.and_two_pow_sub_one_eq_mod b.toNat 4

/-- The channels but one contribute at most 45 to M. -/
theorem stepMix_sub_stepTerm_range (s : State) (c : Chan) :
    -45 ≤ stepMix s - stepTerm s c ∧ stepMix s - stepTerm s c ≤ 45 := by
  have h0 := stepTerm_range s 0
  have h1 := stepTerm_range s 1
  have h2 := stepTerm_range s 2
  have h3 := stepTerm_range s 3
  unfold stepMix
  fin_cases c <;> simp only [Fin.zero_eta, Fin.mk_one, Fin.reduceFinMk] <;> omega

/-- Which bit a channel gets hangs on the channels below it, not on itself (R103). -/
theorem noiseRank_writeCtrl_self (c : Chan) (b : Byte) (s : State) : noiseRank (writeCtrl c b s) c = noiseRank s c := by
  unfold noiseRank
  congr 1
  refine List.filter_congr fun d _ => ?_
  rcases eq_or_ne c d with rfl | hd
  · simp
  · rw [ctrl_writeCtrl, if_neg hd]

/-- Settles O18: the STEP runs on the state the write has left, in which the divider or the control byte of the channel is the new
one and all else the channel's sample hangs on is as before. -/
theorem writeSeenByNextSample : Obligations.WriteSeenByNextSample := by
  unfold Obligations.WriteSeenByNextSample
  refine fun s c hs => ⟨fun v => ?divider, fun b => ?control⟩
  case divider =>
    have hlive : Live (deliver .nothing (writeFreq c v s)) := hs
    refine ⟨_, (serveAll_call_next (exec_wrfreq hs c v)).trans (serveAll_call_next (exec_step hlive)), ?_⟩
    rw [phase_deliver, phase_sampleStep, phaseSum, phaseIncrement, divisor, freq_deliver, freq_writeFreq, if_pos rfl]
    rfl
  case control =>
    obtain ⟨u, hu⟩ : ∃ u, u = deliver .nothing (writeCtrl c b s) := ⟨_, rfl⟩
    have hwrite : exec (.wrctrl (c.val : Int) (b.toNat : Int)) s = .next u := hu ▸ exec_wrctrl hs c b
    have hlive : Live u := hu ▸ hs
    have hctrl : ctrl u c = b := by rw [hu, ctrl_deliver, ctrl_writeCtrl, if_pos rfl]
    refine ⟨_, stepLevel u c, stepMix u, (serveAll_call_next hwrite).trans (serveAll_call_next (exec_step hlive)),
      (out_deliver _ _ c).trans (out_sampleStep u c), ?results, fun hb => ?tone, fun hb => ?noise,
      stepMix u - stepTerm u c, ?sum, stepMix_sub_stepTerm_range u c⟩
    case results => simp [hu]
    case tone =>
      rw [stepLevel_of_tone (by rwa [ToneMode, hctrl]), hu]
      rfl
    case noise =>
      have hrank : noiseRank u c = noiseRank s c := hu ▸ noiseRank_writeCtrl_self c b s
      rw [stepLevel_of_noise (by rwa [hctrl]), hrank, hu]
      rfl
    case sum => rw [← volume_eq_mod, ← hctrl, ← stepTerm, sub_add_cancel]

end Sys2Proof.Machine
end

section
/-!
PROOFS. One sample step (42_sample_step): the state it leaves, the mix it returns, the phase it changes, and O24, O26, O27, O29 and the
refutation of O28.
-/

namespace Sys2Proof.Machine

/-! ### The state after a STEP -/

/-- Of the state a sample step writes phases, outputs and noise register only. -/
theorem sampleStep_frame (s : State) : { (sampleStep s).1 with
    channelPhase := s.channelPhase, channelOutput := s.channelOutput, lfsrState := s.lfsrState } = s :=
  State.ext_get (sampleStep_clockRate s) (sampleStep_sampleRate s) (freq_sampleStep s) (ctrl_sampleStep s) rfl
    (fun _ => rfl) (fun _ => rfl) (sampleStep_faulted s) (sampleStep_bufCapacity s) (sampleStep_port s)
    (sampleStep_results s) (sampleStep_draws s)

/-- Settles O24: the loop over the channels is the sample step in closed form, and STEP adds its mix to the results. -/
theorem stepResult : Obligations.StepResult := by
  unfold Obligations.StepResult
  refine fun s hs => ⟨_, exec_step hs, phase_sampleStep s, out_sampleStep s, sampleStep_lfsrState s, ?results, ?frame⟩
  case results => rw [deliver_results, sampleStep_results]
  case frame =>
    conv_rhs => rw [← sampleStep_frame s]
    rw [← sampleStep_results s]
    rfl

/-! ### The mix -/

theorem stepMix_eq_sum (s : State) : stepMix s = ∑ c : Chan, (stepLevel s c).toInt * (volume (ctrl s c) : Int) :=
  (Fin.sum_univ_four _).symm

theorem stepMix_eq_zero_of_volumes {s : State} (h : ∀ c : Chan, volume (ctrl s c) = 0) : stepMix s = 0 := by
  simp [stepMix_eq_sum, h]

theorem stepTerm_eq (s : State) (c : Chan) : stepTerm s c = volume (ctrl s c) ∨ stepTerm s c = -(volume (ctrl s c) : Int) := by
  unfold stepTerm
  rcases Level.toInt_eq (stepLevel s c) with h | h <;> simp [h]

/-- In the source's form a channel contributes at most 1 in size (R115). -/
theorem abs_level_mul_volume_le (l : Level) (b : Byte) : |(l.toInt : Rat) * ((volume b : Rat) / 15)| ≤ 1 := by
  have hvol : (volume b : Rat) ≤ 15 := by exact_mod_cast volume_le b
  have hlevel : |(l.toInt : Rat)| = 1 := by rcases Level.toInt_eq l with h | h <;> simp [h]
  rw [abs_mul, hlevel, one_mul, abs_of_nonneg (by positivity)]
  linarith

theorem mixValue_eq_iff {M N : Int} : mixValue M = N ↔ M = 60 * N := by
  rw [mixValue, div_eq_iff (by norm_num), mul_comm]
  exact_mod_cast Iff.rfl

/-- A mix of 1 or -1 takes 15 or -15 from every channel (R117). -/
theorem stepTerm_of_mix_extreme {s : State} {e : Int} (he : e = 1 ∨ e = -1) (h : stepMix s = 60 * e) (c : Chan) :
    stepTerm s c = 15 * e := by
  have h0 := stepTerm_range s 0
  have h1 := stepTerm_range s 1
  have h2 := stepTerm_range s 2
  have h3 := stepTerm_range s 3
  unfold stepMix at h
  fin_cases c <;> simp only [Fin.zero_eta, Fin.mk_one, Fin.reduceFinMk] <;> omega

theorem volume_level_of_stepTerm_extreme {s : State} {c : Chan} {e : Int} (he : e = 1 ∨ e = -1)
    (h : stepTerm s c = 15 * e) : volume (ctrl s c) = 15 ∧ (stepLevel s c).toInt = e := by
  have hvol := volume_le (ctrl s c)
  unfold stepTerm at h
  rcases Level.toInt_eq (stepLevel s c) with hl | hl <;> rw [hl] at h ⊢ <;> omega

theorem Level.toInt_injective : Function.Injective Level.toInt :=
  Function.LeftInverse.injective (g := fun n => if n = 1 then .plus else .minus) fun l => by cases l <;> rfl

/-- Settles O26: the levels are those of the closed form, so M is the sum of four terms, each plus or minus a volume of at most 15. -/
theorem mixNumeratorLaws : Obligations.MixNumeratorLaws := by
  unfold Obligations.MixNumeratorLaws
  intro s hs
  obtain ⟨hlow, hhigh⟩ := stepMix_range s
  obtain ⟨hmixLow, hmixHigh⟩ := mixValue_mem hlow hhigh
  refine ⟨_, stepLevel s, stepMix s, exec_step hs, by simp, out_sampleStep s, fun c => volume_eq_mod _, stepMix_eq_sum s,
    ?sourceForm, fun c => abs_level_mul_volume_le _ _, abs_le.2 ⟨hlow, hhigh⟩, hmixLow, hmixHigh,
    stepMix_eq_zero_of_volumes, ?parity, fun h => ?extreme⟩
  case sourceForm =>
    rw [stepMix_eq_sum, mixValue, Finset.sum_div]
    push_cast
    rw [Finset.sum_div]
    exact Finset.sum_congr rfl fun c _ => by ring
  case parity =>
    have h0 := stepTerm_eq s 0
    have h1 := stepTerm_eq s 1
    have h2 := stepTerm_eq s 2
    have h3 := stepTerm_eq s 3
    rw [Fin.sum_univ_four, stepMix]
    omega
  case extreme =>
    obtain ⟨e, he, hmix⟩ : ∃ e : Int, (e = 1 ∨ e = -1) ∧ stepMix s = 60 * e := by
      rcases h with h | h
      · exact ⟨1, .inl rfl, mixValue_eq_iff.1 (by exact_mod_cast h)⟩
      · exact ⟨-1, .inr rfl, mixValue_eq_iff.1 (by exact_mod_cast h)⟩
    have hall (c : Chan) := volume_level_of_stepTerm_extreme he (stepTerm_of_mix_extreme he hmix c)
    exact ⟨fun c => (hall c).1, fun c d => Level.toInt_injective ((hall c).2.trans (hall d).2.symm)⟩

/-- Settles O27: STEP and RENDER 1 make the one sample step; STEP returns its mix and RENDER its quantised mix. -/
theorem stepAloneAndInRender : Obligations.StepAloneAndInRender := by
  unfold Obligations.StepAloneAndInRender
  intro s hs hfits
  have hrender := exec_render_of_fits hs (n := 1) hfits
  exact ⟨_, _, stepMix s, quantSample (stepMix s), exec_step hs, hrender, rfl, by simp, by simp [mixes],
    quantSample_stepMix_toInt s⟩

/-! ### Which phases a STEP changes -/

/-- Wrapping takes 1 from the sum and the increment puts it back if it is 1; without a wrap an increment above 0 stays. -/
theorem wrapPhase_phaseSum_eq_iff {s : State} {c : Chan} (h : 0 < phaseIncrement s c) :
    wrapPhase (phaseSum s c) = phase s c ↔ phaseIncrement s c = 1 ∧ 1 ≤ phaseSum s c := by
  rcases le_or_gt 1 (phaseSum s c) with hp | hp
  · rw [wrapPhase_of_le hp, and_iff_left hp, phaseSum]
    constructor <;> intro <;> linarith
  · rw [wrapPhase_of_lt hp]
    refine iff_of_false (fun hkept => ?_) fun hboth => absurd hboth.2 (not_le.2 hp)
    rw [phaseSum] at hkept
    linarith

/-- Settles O29: under the invariant the increment is above 0. -/
theorem stepChangesPhaseUnlessIncrementOne : Obligations.StepChangesPhaseUnlessIncrementOne := by
  unfold Obligations.StepChangesPhaseUnlessIncrementOne
  intro s t hinv hstep c
  obtain ⟨hclock, hrate, -⟩ := hinv
  obtain ⟨hs, -⟩ := exec_effect hstep
  obtain rfl : deliver (.mix (stepMix s)) (sampleStep s).1 = t := by simpa [exec_step hs] using hstep
  rw [phase_deliver, phase_sampleStep]
  exact wrapPhase_phaseSum_eq_iff (phaseIncrement_pos hclock hrate c)

/-- Refutes O28: with both rates 1 and the dividers at reset every increment is 1, so the first STEP wraps the phase 0 back to 0
(R120, R123). -/
theorem not_everyStepChangesEveryPhase : ¬ Obligations.EveryStepChangesEveryPhase := by
  unfold Obligations.EveryStepChangesEveryPhase
  intro h
  have hinv : (State.fresh 1 1 none).Inv := construct_inv (cr := some 1) (sr := some 1) rfl
  have hstep := exec_step (s := State.fresh 1 1 none) rfl
  have hinc : phaseIncrement (State.fresh 1 1 none) 0 = 1 := by decide +kernel
  refine h _ _ hinv hstep 0 ((stepChangesPhaseUnlessIncrementOne _ _ hinv hstep 0).2 ⟨hinc, ?_⟩)
  rw [phaseSum, hinc, phase_fresh, zero_add]

end Sys2Proof.Machine
end

section
/-!
PROOFS. The tone waveform (42_sample_step on the waveform and on periodicity; 70_reset_and_hazards on runaway and on boot): the
phase over any number of sample steps, while every sum wraps and while the increment is at most 1, and O31 to O37.
-/

namespace Sys2Proof.Machine

/-! ### Any number of sample steps -/

theorem phaseSum_sampleSteps (n : Nat) (s : State) (c : Chan) :
    phaseSum (sampleSteps n s) c = phase (sampleSteps n s) c + phaseIncrement s c := by
  rw [phaseSum, phaseIncrement_sampleSteps]

/-- In tone mode the output of STEP number `n + 1` is the tone level of the sum it makes (R112). -/
theorem out_sampleSteps_succ_of_tone (n : Nat) {s : State} {c : Chan} (h : ToneMode s c) :
    out (sampleSteps (n + 1) s) c = some (toneLevel (phaseSum (sampleSteps n s) c)) := by
  rw [out_sampleSteps_succ, stepLevel_of_tone (by rwa [ToneMode, ctrl_sampleSteps])]

/-! ### While every sum wraps -/

theorem mul_le_of_succ_mul_le {p d : Rat} {j : Nat} (hp : 0 ≤ p) (h : ((j + 1 : Nat) : Rat) * d ≤ p) : j * d ≤ p := by
  push_cast at h
  rcases le_total 0 d with hd | hd
  · linarith
  · exact (mul_nonpos_of_nonneg_of_nonpos (Nat.cast_nonneg j) hd).trans hp

section Wrapping

variable {s : State} {c : Chan} (h0 : 0 ≤ phase s c) {j : Nat}
include h0

/-- As long as the phase has `j` times `1 - inc` to give, every STEP wraps and takes that much from it (R120). -/
theorem phase_sampleSteps_of_wrapping (h : j * (1 - phaseIncrement s c) ≤ phase s c) :
    phase (sampleSteps j s) c = phase s c - j * (1 - phaseIncrement s c) := by
  induction j with
  | zero => simp
  | succ j ih =>
    rw [phase_sampleSteps_succ, ih (mul_le_of_succ_mul_le h0 h), wrapPhase_of_le (by push_cast at h; linarith)]
    push_cast
    ring

theorem one_le_phaseSum_sampleSteps (h : ((j + 1 : Nat) : Rat) * (1 - phaseIncrement s c) ≤ phase s c) :
    1 ≤ phaseSum (sampleSteps j s) c := by
  rw [phaseSum_sampleSteps, phase_sampleSteps_of_wrapping h0 (mul_le_of_succ_mul_le h0 h)]
  push_cast at h
  linarith

theorem out_sampleSteps_of_wrapping (htone : ToneMode s c)
    (h : ((j + 1 : Nat) : Rat) * (1 - phaseIncrement s c) ≤ phase s c) : out (sampleSteps (j + 1) s) c = some .plus := by
  rw [out_sampleSteps_succ_of_tone j htone, toneLevel_of_le (one_le_phaseSum_sampleSteps h0 h)]

/-- With an increment of at least 1 there is nothing to give, and the wrapping never ends. -/
theorem mul_one_sub_le_of_one_le (hinc : 1 ≤ phaseIncrement s c) (n : Nat) : n * (1 - phaseIncrement s c) ≤ phase s c :=
  (mul_nonpos_of_nonneg_of_nonpos (Nat.cast_nonneg n) (sub_nonpos.2 hinc)).trans h0

/-- With an increment of at least 1 the phase grows by `inc - 1` a STEP, for ever (R120). -/
theorem phase_sampleSteps_of_one_le (hinc : 1 ≤ phaseIncrement s c) (n : Nat) :
    phase (sampleSteps n s) c = phase s c + n * (phaseIncrement s c - 1) := by
  rw [phase_sampleSteps_of_wrapping h0 (mul_one_sub_le_of_one_le h0 hinc n)]
  ring

end Wrapping

/-- How often `d` can be taken from `p`. -/
theorem exists_floor_div {p d : Rat} (hp : 0 ≤ p) (hd : 0 < d) :
    ∃ N : Nat, (N : Int) = ⌊p / d⌋ ∧ N * d ≤ p ∧ p < (N + 1) * d := by
  obtain ⟨N, hN⟩ := Int.eq_ofNat_of_zero_le (Int.floor_nonneg.2 (div_nonneg hp hd.le))
  have hle := Int.floor_le (p / d)
  have hlt := Int.lt_floor_add_one (p / d)
  rw [hN, le_div_iff₀ hd, Int.cast_natCast] at hle
  rw [hN, div_lt_iff₀ hd, Int.cast_natCast] at hlt
  exact ⟨N, hN.symm, hle, hlt⟩

/-! ### The increment at given rates -/

theorem one_lt_phaseIncrement_iff {s : State} {c : Chan} (h : 1 ≤ s.sampleRate) :
    1 < phaseIncrement s c ↔ (freq s c + 1) * s.sampleRate < s.clockRate := by
  have hpos : 0 < (((divisor s c) * s.sampleRate : Nat) : Rat) := Nat.cast_pos.2 (Nat.mul_pos (one_le_divisor s c) h)
  rw [phaseIncrement, one_lt_div hpos, Nat.cast_lt]
  rfl

/-- With the default rates the increment is above 1 for the dividers 0 to 39 (R32, R120). -/
theorem one_lt_phaseIncrement_default_iff {s : State} {c : Chan} (hclock : s.clockRate = 1790000)
    (hrate : s.sampleRate = 44100) : 1 < phaseIncrement s c ↔ freq s c ≤ 39 := by
  rw [one_lt_phaseIncrement_iff (by omega), hclock, hrate]
  omega

/-- Settles O35: an increment of at least 1 lets the phase wrap for ever, adding `inc - 1` a STEP; and any sum of at least 1 wraps. -/
theorem runawayTone : Obligations.RunawayTone := by
  unfold Obligations.RunawayTone
  refine ⟨fun s c n hs h0 hinc => ?above,
    fun s c hclock hrate => ⟨one_lt_phaseIncrement_default_iff hclock hrate, fun h => ?zero⟩, fun s c hs hp => ⟨_, exec_step hs, ?lowered, fun htone => ?plus⟩,
    fun s c n hs hinc h1 => ?one⟩
  case above =>
    exact ⟨_, _, serveAll_stepCommands n hs, serveAll_stepCommands (n + 1) hs, phase_sampleSteps_of_one_le h0 hinc.le n,
      fun htone => out_sampleSteps_of_wrapping h0 htone (mul_one_sub_le_of_one_le h0 hinc.le (n + 1))⟩
  case zero =>
    rw [phaseIncrement, divisor, h, hclock, hrate]
    norm_num
  case lowered =>
    rw [phase_deliver, phase_sampleStep, wrapPhase_of_le hp, phaseSum]
    ring
  case plus => rw [out_deliver, out_sampleStep, stepLevel_of_tone htone, toneLevel_of_le hp]
  case one =>
    have h0 : 0 ≤ phase s c := by linarith
    refine ⟨_, _, serveAll_stepCommands n hs, serveAll_stepCommands (n + 1) hs, ?_,
      fun htone => out_sampleSteps_of_wrapping h0 htone (mul_one_sub_le_of_one_le h0 hinc.ge (n + 1))⟩
    have hphase := phase_sampleSteps_of_one_le h0 hinc.ge n
    rwa [hinc, sub_self, mul_zero, add_zero] at hphase

/-- Settles O36: the phase P has `floor (P / (1 - inc))` times `1 - inc` to give; the STEP after that does not wrap, and what is left
of P and the increment make less than 1. -/
theorem runawayRecoveryTime : Obligations.RunawayRecoveryTime := by
  unfold Obligations.RunawayRecoveryTime
  intro s c k hs htone h0 hinc hk
  have hd : 0 < 1 - phaseIncrement s c := by linarith
  obtain ⟨N, hN, hle, hlt⟩ := exists_floor_div h0 hd
  obtain rfl : k = N + 1 := by
    have hshift : (phase s c + phaseIncrement s c - 1) / (1 - phaseIncrement s c) =
        phase s c / (1 - phaseIncrement s c) - 1 := by
      field_simp
      ring
    rw [hshift, Int.floor_sub_one, ← hN] at hk
    omega
  have hphase := phase_sampleSteps_of_wrapping h0 hle
  have hsum : phaseSum (sampleSteps N s) c < 1 := by
    rw [phaseSum_sampleSteps, hphase]
    linarith
  refine ⟨by omega, fun j hj1 hjk => ?wrapping, _, serveAll_stepCommands (N + 1) hs, ?level, ?phase⟩
  case wrapping =>
    obtain ⟨i, rfl⟩ : ∃ i, j = i + 1 := ⟨j - 1, by omega⟩
    refine ⟨_, serveAll_stepCommands (i + 1) hs, out_sampleSteps_of_wrapping h0 htone ?_⟩
    have hmono : ((i + 1 : Nat) : Rat) ≤ N := by exact_mod_cast (by omega : i + 1 ≤ N)
    exact (mul_le_mul_of_nonneg_right hmono hd.le).trans hle
  case level =>
    have hout := out_sampleSteps_succ_of_tone N htone
    rwa [toneLevel_of_lt hsum] at hout
  case phase =>
    have hnext : phase (sampleSteps (N + 1) s) c = phaseSum (sampleSteps N s) c := by
      rw [sampleSteps_succ', phase_sampleStep, wrapPhase_of_lt hsum]
    have hnonneg : 0 ≤ phaseSum (sampleSteps N s) c := by
      rw [phaseSum_sampleSteps, hphase]
      have := phaseIncrement_nonneg s c
      linarith
    exact hnext ▸ ⟨hnonneg, hsum⟩

end Sys2Proof.Machine
end

section
/-!
PROOFS. The tone waveform for an increment of at most 1 (42_sample_step R119, on periodicity; 10_state R32): the phase is the
fractional part of a straight line, wraps are where its floor goes up, and O31 to O34 and O37.
-/

namespace Sys2Proof.Machine

/-! ### The straight line -/

/-- The phase the channel would have after `k` sample steps if nothing wrapped. -/
def unwrapped (s : State) (c : Chan) (k : Nat) : Rat := phase s c + k * phaseIncrement s c

theorem unwrapped_zero (s : State) (c : Chan) : unwrapped s c 0 = phase s c := by simp [unwrapped]

theorem unwrapped_succ (s : State) (c : Chan) (k : Nat) :
    unwrapped s c (k + 1) = unwrapped s c k + phaseIncrement s c := by
  rw [unwrapped, unwrapped]
  push_cast
  ring

theorem one_le_fract_add_iff (x d : Rat) : 1 ≤ Int.fract x + d ↔ ⌊x⌋ < ⌊x + d⌋ := by
  rw [← Int.add_one_le_iff, Int.le_floor, Int.fract]
  push_cast
  constructor <;> intro <;> linarith

/-- Wrapping once is enough for a sum below 2: it leaves the fractional part. -/
theorem wrapPhase_fract_add {x d : Rat} (h0 : 0 ≤ d) (h1 : d ≤ 1) : wrapPhase (Int.fract x + d) = Int.fract (x + d) := by
  have hlow := Int.fract_nonneg x
  have hhigh := Int.fract_lt_one x
  rw [eq_comm, Int.fract_eq_iff]
  rcases le_or_gt 1 (Int.fract x + d) with h | h
  · rw [wrapPhase_of_le h]
    refine ⟨by linarith, by linarith, ⌊x⌋ + 1, ?_⟩
    rw [Int.fract]
    push_cast
    ring
  · rw [wrapPhase_of_lt h]
    exact ⟨by linarith, h, ⌊x⌋, by rw [Int.fract]; ring⟩

section Pulses

variable {s : State} {c : Chan} (h : InRange s c)
include h

/-- The phase after `k` sample steps is the fractional part of the straight line (R119). -/
theorem phase_sampleSteps_of_inRange (k : Nat) : phase (sampleSteps k s) c = Int.fract (unwrapped s c k) := by
  obtain ⟨hlow, hhigh, hinc⟩ := h
  induction k with
  | zero => rw [unwrapped_zero, sampleSteps_zero, Int.fract_eq_self.2 ⟨hlow, hhigh⟩]
  | succ k ih => rw [phase_sampleSteps_succ, ih, wrapPhase_fract_add (phaseIncrement_nonneg s c) hinc, unwrapped_succ]

/-- STEP number `k + 1` wraps exactly where the floor of the straight line goes up (R119). -/
theorem one_le_phaseSum_iff_of_inRange (k : Nat) :
    1 ≤ phaseSum (sampleSteps k s) c ↔ ⌊unwrapped s c k⌋ < ⌊unwrapped s c (k + 1)⌋ := by
  rw [phaseSum_sampleSteps, phase_sampleSteps_of_inRange h, one_le_fract_add_iff, unwrapped_succ]

theorem floor_unwrapped_zero : ⌊unwrapped s c 0⌋ = 0 := by
  rw [unwrapped_zero]
  exact Int.floor_eq_zero_iff.2 ⟨h.1, h.2.1⟩

/-- A STEP leaves the floor of the straight line or raises it by 1, as it wraps or not. -/
theorem floor_unwrapped_succ (k : Nat) : ⌊unwrapped s c (k + 1)⌋ =
    ⌊unwrapped s c k⌋ + if wraps (phaseSum (sampleSteps k s) c) then 1 else 0 := by
  have hmono : ⌊unwrapped s c k⌋ ≤ ⌊unwrapped s c (k + 1)⌋ := by
    rw [unwrapped_succ]
    exact Int.floor_mono (le_add_of_nonneg_right (phaseIncrement_nonneg s c))
  have hsucc : ⌊unwrapped s c (k + 1)⌋ ≤ ⌊unwrapped s c k⌋ + 1 := by
    rw [unwrapped_succ, ← Int.floor_add_one]
    exact Int.floor_mono (by linarith [h.2.2])
  simp only [wraps_iff, one_le_phaseSum_iff_of_inRange h]
  split <;> omega

/-- The floor of the straight line counts the wraps. -/
theorem countP_wraps (k : Nat) :
    (((List.range k).countP fun i => wraps (phaseSum (sampleSteps i s) c) : Nat) : Int) = ⌊unwrapped s c k⌋ := by
  induction k with
  | zero => exact (floor_unwrapped_zero h).symm
  | succ k ih =>
    rw [List.range_succ, List.countP_append, List.countP_singleton, Nat.cast_add, ih, floor_unwrapped_succ h]
    split <;> rfl

end Pulses

/-- Settles O32: the phase and the wraps are those of the straight line. -/
theorem toneClosedForm : Obligations.ToneClosedForm := by
  unfold Obligations.ToneClosedForm
  intro s c k hs htone h
  refine ⟨_, _, serveAll_stepCommands k hs, serveAll_stepCommands (k + 1) hs, phase_sampleSteps_of_inRange h k, ?_⟩
  have hout := out_sampleSteps_succ_of_tone k htone
  simp only [toneLevel_eq_ite, one_le_phaseSum_iff_of_inRange h, unwrapped, Nat.cast_succ] at hout
  exact hout

/-! ### Spacing of the wraps -/

theorem wraps_of_out {s : State} {c : Chan} {k : Nat} (hs : Live s) (htone : ToneMode s c) {l : Level}
    (h : ∃ t, serveAll (stepCommands (k + 1)) s = .next t ∧ out t c = some l) :
    wraps (phaseSum (sampleSteps k s) c) = true ↔ l = .plus := by
  obtain ⟨t, ht, hout⟩ := h
  rw [serveAll_stepCommands _ hs, Host.Outcome.next.injEq] at ht
  have hlevel : some (toneLevel (phaseSum (sampleSteps k s) c)) = some l := by
    rw [← out_sampleSteps_succ_of_tone k htone, ← hout, ← ht]
    rfl
  rw [Option.some_inj] at hlevel
  rw [← hlevel, toneLevel]
  split <;> simp_all

/-- An integer less than 1 away from `x` is its floor or its ceiling. -/
theorem eq_floor_or_eq_ceil {x : Rat} {m : Int} (hlow : x - 1 < m) (hhigh : m < x + 1) : m = ⌊x⌋ ∨ m = ⌈x⌉ := by
  rcases le_total (m : Rat) x with h | h
  · exact .inl (Int.floor_eq_iff.2 ⟨h, by linarith⟩).symm
  · exact .inr (Int.ceil_eq_iff.2 ⟨by linarith, h⟩).symm

/-- Settles O33: between two wraps the floor of the straight line stays at 1, so `m` STEPs add less than 1 more than the increment of
one, and `m + 1` add more than 1. -/
theorem wrapSpacing : Obligations.WrapSpacing := by
  unfold Obligations.WrapSpacing
  intro s c m hs htone h hpos hm hfirst hbetween hlast
  have hF1 : ⌊unwrapped s c 1⌋ = 1 := by
    rw [floor_unwrapped_succ h, if_pos ((wraps_of_out hs htone hfirst).2 rfl), floor_unwrapped_zero h, zero_add]
  have hFm (j : Nat) (hj : 1 ≤ j) (hjm : j ≤ m) : ⌊unwrapped s c j⌋ = 1 := by
    induction j, hj using Nat.le_induction with
    | base => exact hF1
    | succ j hj ih =>
      have hno : ¬wraps (phaseSum (sampleSteps j s) c) = true := fun hw =>
        nomatch (wraps_of_out hs htone (hbetween (j + 1) (by omega) hjm)).1 hw
      rw [floor_unwrapped_succ h, if_neg hno, ih (by omega), add_zero]
  have hFlast : ⌊unwrapped s c (m + 1)⌋ = 2 := by
    rw [floor_unwrapped_succ h, if_pos ((wraps_of_out hs htone hlast).2 rfl), hFm m hm le_rfl]
    rfl
  have hone : 1 ≤ phase s c + phaseIncrement s c := by simpa [unwrapped] using (Int.floor_eq_iff.1 hF1).1
  have hbelow : phase s c + m * phaseIncrement s c < 1 + 1 := by
    simpa [unwrapped] using (Int.floor_eq_iff.1 (hFm m hm le_rfl)).2
  have habove : 2 ≤ phase s c + (m + 1) * phaseIncrement s c := by simpa [unwrapped] using (Int.floor_eq_iff.1 hFlast).1
  refine eq_floor_or_eq_ceil ?_ ?_
  · rw [sub_lt_iff_lt_add, div_lt_iff₀ hpos, Int.cast_natCast]
    linarith [h.2.1]
  · rw [← sub_lt_iff_lt_add, lt_div_iff₀ hpos, Int.cast_natCast]
    linarith

/-! ### Exact periodicity -/

/-- A multiple of a fraction in lowest terms is an integer exactly if the denominator divides the factor. -/
theorem exists_int_eq_mul_iff (q : Rat) (k : Nat) : (∃ z : Int, k * q = z) ↔ q.den ∣ k := by
  constructor
  · rintro ⟨z, hz⟩
    have hnum : (k : Int) * q.num = z * q.den := by
      have : (k : Rat) * q.num = z * q.den := by rw [← hz, mul_assoc, Rat.mul_den_eq_num]
      exact_mod_cast this
    have hdvd : (q.den : Int) ∣ k * q.num := ⟨z, by rw [hnum, mul_comm]⟩
    have hcop : IsCoprime (q.den : Int) q.num := Int.isCoprime_iff_gcd_eq_one.2 q.reduced.symm
    exact_mod_cast hcop.dvd_of_dvd_mul_right hdvd
  · rintro ⟨m, rfl⟩
    refine ⟨m * q.num, ?_⟩
    push_cast
    rw [mul_comm (q.den : Rat), mul_assoc, mul_comm (q.den : Rat), Rat.mul_den_eq_num]

/-- Settles O34: the fractional part of the straight line comes back exactly when an integer has been added, and over the denominator
of the increment its numerator is added. -/
theorem toneExactPeriod : Obligations.ToneExactPeriod := by
  unfold Obligations.ToneExactPeriod
  refine fun s c hs _ h => ⟨fun k => ⟨_, serveAll_stepCommands k hs, ?returns⟩, ?wraps⟩
  case returns =>
    have hfract : Int.fract (phase s c) = phase s c := Int.fract_eq_self.2 ⟨h.1, h.2.1⟩
    have hdiff : unwrapped s c k - phase s c = k * phaseIncrement s c := by rw [unwrapped]; ring
    rw [← exists_int_eq_mul_iff, ← hdiff, ← Int.fract_eq_fract, hfract, ← phase_sampleSteps_of_inRange h]
    rfl
  case wraps =>
    rw [countP_wraps h, unwrapped, mul_comm, Rat.mul_den_eq_num, Int.floor_add_intCast, ← unwrapped_zero,
      floor_unwrapped_zero h, zero_add]

/-! ### The range of a phase -/

theorem InRange.sampleStep {s : State} {c : Chan} (h : InRange s c) : InRange (sampleStep s).1 c := by
  have hphase : phase (Machine.sampleStep s).1 c = Int.fract (unwrapped s c 1) := phase_sampleSteps_of_inRange h 1
  rw [InRange, hphase, phaseIncrement_sampleStep]
  exact ⟨Int.fract_nonneg _, Int.fract_lt_one _, h.2.2⟩

/-- The increment is at most 1 exactly if the divisor is at least clockRate / sampleRate (R32). -/
theorem phaseIncrement_le_one_iff {s : State} {c : Chan} (h : 1 ≤ s.sampleRate) :
    phaseIncrement s c ≤ 1 ↔ (s.clockRate : Rat) / s.sampleRate ≤ (freq s c : Rat) + 1 := by
  rw [← not_lt, one_lt_phaseIncrement_iff h, not_lt, div_le_iff₀ (Nat.cast_pos.2 h)]
  exact_mod_cast Iff.rfl

theorem phaseIncrement_le_one_default_iff {s : State} {c : Chan} (hclock : s.clockRate = 1790000)
    (hrate : s.sampleRate = 44100) : phaseIncrement s c ≤ 1 ↔ 40 ≤ freq s c := by
  rw [← not_lt, one_lt_phaseIncrement_default_iff hclock hrate, not_le, Nat.lt_iff_add_one_le]

/-- Settles O37: the fractional part stays in [0,1); above an increment of 1 a STEP is the first of the runaway; and the increment at
most 1 is a condition on the divider. -/
theorem phaseRange : Obligations.PhaseRange := by
  unfold Obligations.PhaseRange
  refine ⟨fun s hs => (State.inv_iff.1 hs.inv).1.phase, fun s c hs h => ⟨_, exec_step hs, h.sampleStep⟩,
    fun s c => phaseIncrement_le_one_iff, fun s c hs h0 hinc => ⟨sub_pos.2 hinc, _, exec_step hs, ?grows, fun htone => ?plus⟩,
    fun s c hclock hrate => ⟨?ratio, phaseIncrement_le_one_default_iff hclock hrate⟩, fun c => ?reset⟩
  case grows =>
    have hphase := phase_sampleSteps_of_one_le h0 hinc.le 1
    rwa [Nat.cast_one, one_mul] at hphase
  case plus => exact out_sampleSteps_of_wrapping h0 htone (mul_one_sub_le_of_one_le h0 hinc.le 1)
  case ratio =>
    rw [hclock, hrate]
    norm_num
  case reset =>
    rw [phaseIncrement_le_one_default_iff rfl rfl, State.reset, freq_fresh]
    decide

/-! ### A fresh engine -/

/-- Volumes of 0 make every mix 0, because no STEP writes a control byte. -/
theorem mixes_eq_replicate_zero {s : State} (h : ∀ c : Chan, volume (ctrl s c) = 0) (n : Nat) :
    mixes n s = List.replicate n 0 := by
  refine List.ext_getElem (by simp) fun i hi _ => ?_
  rw [mixes_getElem, List.getElem_replicate]
  exact stepMix_eq_zero_of_volumes fun c => by rw [ctrl_sampleSteps, h]

theorem phaseIncrement_fresh (clockRate sampleRate : Nat) (cap : Option Nat) (c : Chan) :
    phaseIncrement (State.fresh clockRate sampleRate cap) c = (clockRate : Rat) / sampleRate := by
  rw [phaseIncrement, divisor, freq_fresh, Nat.zero_add, Nat.one_mul]
  rfl

/-- Settles O31: at reset every volume is 0 and every divider 0, so nothing is heard while the increment is clockRate / sampleRate. -/
theorem freshEngineIsSilent : Obligations.FreshEngineIsSilent := by
  unfold Obligations.FreshEngineIsSilent
  intro cr sr cap n s hs hfits
  obtain ⟨hcr, hsr, rfl⟩ := construct_eq_next.1 hs
  simp only [Option.getD_some, Int.toNat_natCast] at hcr hsr hfits ⊢
  have hvol (c : Chan) : volume (ctrl (State.fresh cr sr cap) c) = 0 := by rw [ctrl_fresh]; rfl
  have hquant : quantSample 0 = 0#16 := by decide +kernel
  refine ⟨⟨_, exec_step rfl, ?mix⟩, _, exec_render_of_fits rfl hfits, ?buffer, fun hlt c => ?phase⟩
  case mix =>
    rw [stepMix_eq_zero_of_volumes hvol, deliver_results, sampleStep_results]
    rfl
  case buffer =>
    rw [mixes_eq_replicate_zero hvol, List.map_replicate, hquant, deliver_results, sampleSteps_results]
    rfl
  case phase =>
    have hpos : (0 : Rat) < sr := by exact_mod_cast (by omega : 0 < sr)
    have hinc : 1 ≤ phaseIncrement (State.fresh cr sr cap) c := by
      rw [phaseIncrement_fresh, one_le_div hpos]
      exact_mod_cast hlt.le
    rw [phase_deliver, phase_sampleSteps_of_one_le (phase_fresh cr sr cap c).ge hinc, phase_fresh, phaseIncrement_fresh,
      zero_add]

end Sys2Proof.Machine
end

section
/-!
PROOFS. RENDER and RENDERSEC (43_render_quantize; 20_memory section 5; 30_encoding section 5): one noise channel alone, split renders,
durations and their expansion into words, and O23, O39, O41 and O42.
-/

namespace Sys2Proof.Machine

/-! ### One noise channel alone -/

section OneNoiseChannel

variable {s : State} {c : Chan} (hc : isNoise (ctrl s c) = true)
  (hothers : ∀ d : Chan, d ≠ c → isNoise (ctrl s d) = false ∧ volume (ctrl s d) = 0)
include hc hothers

theorem noiseCount_eq_one : noiseCount s = 1 := by
  have hmode (d : Chan) : isNoise (ctrl s d) = decide (d = c) := by
    rcases eq_or_ne d c with rfl | hd
    · rw [hc, decide_eq_true rfl]
    · rw [(hothers d hd).1, decide_eq_false hd]
  rw [noiseCount, List.filter_congr fun d _ => hmode d]
  exact (by decide : ∀ c : Chan, (channelOrder.filter fun d => decide (d = c)).length = 1) c

/-- Sample number `k` is the channel's volume, signed by bit number `k` of the noise sequence (R113). -/
theorem stepMix_sampleSteps_of_one_noise (k : Nat) : stepMix (sampleSteps k s) =
    (if noiseBit (noiseNext^[k] s.lfsrState) then 1 else -1) * (volume (ctrl s c) : Int) := by
  have hrank : noiseRank s c = 0 := by
    have := noiseRank_lt_noiseCount hc
    have := noiseCount_eq_one hc hothers
    omega
  rw [stepMix_eq_sum, Finset.sum_eq_single_of_mem c (Finset.mem_univ c) fun d _ hd => by
      rw [ctrl_sampleSteps, (hothers d hd).2, Nat.cast_zero, mul_zero],
    stepLevel_sampleSteps_of_noise k hc, noiseCount_eq_one hc hothers, hrank, mul_one, add_zero, ctrl_sampleSteps]
  cases noiseBit (noiseNext^[k] s.lfsrState) <;> rfl

end OneNoiseChannel

/-- Settles O23: sample number `k` is made by the sample step after `k` others, whose mix is the noise channel's term. -/
theorem noiseChannelFollowsLfsr : Obligations.NoiseChannelFollowsLfsr := by
  unfold Obligations.NoiseChannelFollowsLfsr
  intro s c n hs hfits hc hothers
  refine ⟨_, (mixes n s).map quantSample, exec_render_of_fits hs hfits, by simp, by simp, fun k x hx => ?_⟩
  rw [eq_quantSample_of_getElem? hx, quantSample_stepMix_toInt, stepMix_sampleSteps_of_one_noise hc hothers]

/-! ### Split renders -/

theorem fits_of_le {m n : Nat} {s : State} (h : m ≤ n) (hn : Fits n s) : Fits m s := by
  unfold Fits at hn ⊢
  cases hcap : s.bufCapacity with
  | none => rfl
  | some cap =>
    simp only [hcap, Int.toNat_natCast, exceedsCapacity_some, decide_eq_false_iff_not] at hn ⊢
    omega

/-- RENDERs one after the other make the sample steps of their counts' sum, and return the samples in pieces (R67). -/
theorem serveAll_renders (counts : List Nat) {s : State} (hs : Live s) (hfits : Fits counts.sum s) :
    ∃ (t : State) (bufs : List (List Sample)), serveAll (counts.map fun n : Nat => .call (.render (n : Int))) s = .next t ∧
      bufs.map List.length = counts ∧ t.results = s.results ++ bufs.map Result.buffer ∧
      bufs.flatten = (mixes counts.sum s).map quantSample ∧ engine t = engine (sampleSteps counts.sum s) := by
  induction counts generalizing s with
  | nil => exact ⟨s, [], rfl, rfl, by simp, rfl, rfl⟩
  | cons n counts ih =>
    rw [List.sum_cons] at hfits ⊢
    have hexec := exec_render_of_fits hs (fits_of_le (Nat.le_add_right n _) hfits)
    have hlive : Live (deliver (.buffer ((mixes n s).map quantSample)) (sampleSteps n s)) := (sampleSteps_faulted n s).trans hs
    have hrest : Fits counts.sum (deliver (.buffer ((mixes n s).map quantSample)) (sampleSteps n s)) := by
      rw [Fits, deliver_bufCapacity, sampleSteps_bufCapacity]
      exact fits_of_le (Nat.le_add_left _ n) hfits
    obtain ⟨t, bufs, hserve, hlen, hres, hflat, heng⟩ := ih hlive hrest
    have hhost (r : Result) (u : State) : deliver r u = withHost u.port (u.results ++ [r]) u.draws u := rfl
    refine ⟨t, (mixes n s).map quantSample :: bufs, (serveAll_call_next hexec).trans hserve, by simp [hlen],
      by simp [hres], ?_, ?_⟩
    · rw [List.flatten_cons, hflat, hhost, mixes_withHost, mixes_add, List.map_append]
    · rw [heng, hhost, sampleSteps_withHost, engine_withHost, sampleSteps_add]

/-- Settles O39: both make the same sample steps, and the samples are those of the whole count. -/
theorem renderSplit : Obligations.RenderSplit := by
  unfold Obligations.RenderSplit
  intro s counts hs hfits
  obtain ⟨t, bufs, hserve, hlen, hres, hflat, heng⟩ := serveAll_renders counts hs hfits
  exact ⟨t, _, bufs, hserve, exec_render_of_fits hs hfits, hlen, hres, by simp [hflat], heng⟩

/-! ### Durations -/

theorem floor_mul_nonneg (rate : Nat) {d : Rat} (h : 0 ≤ d) : 0 ≤ ⌊(rate : Rat) * d⌋ :=
  Int.floor_nonneg.2 (mul_nonneg (Nat.cast_nonneg rate) h)

/-- RENDERSEC of a duration is RENDER of its count (R83). -/
theorem serve_renderSec_of_nonneg {s : State} {d : Rat} (hs : Live s) (hd : 0 ≤ d) :
    serve (.renderSec d) s = exec (.render ⌊(s.sampleRate : Rat) * d⌋) s := by
  rw [serve, execRenderSec, whileLive_of_live hs, if_neg (not_lt.2 hd)]
  rfl

theorem serve_renderSec_of_neg {s : State} {d : Rat} (hs : Live s) (hd : d < 0) :
    serve (.renderSec d) s = .next (takeFault (.negativeDuration (.renderSec d)) s) := by
  rw [serve, execRenderSec, whileLive_of_live hs, if_pos hd]

theorem exec_render_of_neg {s : State} {n : Int} (hs : Live s) (hn : n < 0) :
    exec (.render n) s = .next (takeFault (.negativeDuration (.call (.render n))) s) := by
  rw [exec, execRender, whileLive_of_live hs, if_pos hn]

/-- A duration shorter than a sample returns an empty buffer, whatever the capacity, and changes nothing else (R141). -/
theorem serve_renderSec_of_floor_zero {s : State} {d : Rat} (hs : Live s) (hd : 0 ≤ d)
    (h : ⌊(s.sampleRate : Rat) * d⌋ = 0) : serve (.renderSec d) s = .next (deliver (.buffer []) s) := by
  have hfits : Fits (0 : Nat) s := by
    unfold Fits
    cases s.bufCapacity <;> simp
  rw [serve_renderSec_of_nonneg hs hd, h]
  exact exec_render_of_fits hs hfits

/-- Settles O41: RENDERSEC is RENDER of the floor, which is a natural number for d at least 0; a negative duration or count faults
before anything runs. -/
theorem durationToCount : Obligations.DurationToCount := by
  unfold Obligations.DurationToCount
  refine ⟨fun s d hs hd hfits => ?count, fun s hs hrate => ?forgotten, fun s d hs hd => ?negativeDuration,
    fun s n hs hn => ?negativeCount, fun cmd => rfl, fun w n h => ?word⟩
  case count =>
    obtain ⟨n, hn⟩ := Int.eq_ofNat_of_zero_le (floor_mul_nonneg s.sampleRate hd)
    rw [hn] at hfits
    rw [serve_renderSec_of_nonneg hs hd, hn]
    refine ⟨_, (mixes n s).map quantSample, exec_render_of_fits hs hfits, exec_render_of_fits hs hfits, by simp, by simp, ?_⟩
    rintro rfl
    obtain rfl : n = 0 := by simpa using hn.symm
    rfl
  case forgotten =>
    have hfloor : ⌊(s.sampleRate : Rat) * (1 / 100000)⌋ = 0 := by
      rw [hrate]
      norm_num
    have hfirst := serve_renderSec_of_floor_zero hs (by norm_num) hfloor
    have hsecond := serve_renderSec_of_floor_zero (s := deliver (.buffer []) s) hs (by norm_num) hfloor
    exact ⟨_, (serveAll_cons_next hfirst).trans (serveAll_cons_next hsecond), by simp⟩
  case negativeDuration => exact serve_renderSec_of_neg hs hd ▸ faultsWith_takeFault _ s
  case negativeCount => exact exec_render_of_neg hs hn ▸ faultsWith_takeFault _ s
  case word =>
    obtain ⟨-, -, -, rfl⟩ := decode_eq_render.1 h
    exact Int.natCast_nonneg _

/-! ### RENDERSEC's expansion -/

theorem sum_wordCounts (n : Nat) : (wordCounts n).sum = n := by
  unfold wordCounts
  split
  · simp
  · rw [List.sum_append, List.sum_replicate, List.sum_singleton, smul_eq_mul, Nat.div_add_mod']

theorem le_of_mem_wordCounts {m n : Nat} (h : m ∈ wordCounts n) : m ≤ maxWordCount := by
  unfold wordCounts at h
  split at h
  · rwa [List.mem_singleton.1 h]
  · rcases List.mem_append.1 h with h | h
    · exact (List.eq_of_mem_replicate h).le
    · rw [List.mem_singleton.1 h]
      exact (Nat.mod_lt _ (by decide)).le

theorem expandRenderSec_of_nonneg {rate : Nat} {d : Rat} (hd : 0 ≤ d) : expandRenderSec rate d =
    some ((wordCounts ⌊(rate : Rat) * d⌋.toNat).map fun n : Nat => .render (n : Int)) := if_neg (not_lt.2 hd)

/-- A count that one word carries is expanded into that RENDER alone (R83). -/
theorem expandRenderSec_of_floor {rate : Nat} {d : Rat} {n : Nat} (hd : 0 ≤ d) (h : ⌊(rate : Rat) * d⌋ = n)
    (hn : n ≤ maxWordCount) : expandRenderSec rate d = some [.render (n : Int)] := by
  rw [expandRenderSec_of_nonneg hd, h, Int.toNat_natCast, wordCounts, if_pos hn]
  rfl

theorem wellFormed_render {n : Nat} (h : n ≤ maxWordCount) : (Instr.render (n : Int)).wellFormed = true := by
  unfold maxWordCount at h
  simp only [Instr.wellFormed, imm24Ok, decide_eq_true_eq]
  omega

/-- Settles O42: the pieces' counts sum to the floor, so they are a split render of the one RENDER that RENDERSEC is. -/
theorem renderSecExpansion : Obligations.RenderSecExpansion := by
  unfold Obligations.RenderSecExpansion
  refine ⟨fun rate d hd => if_pos hd, fun s d hs hcap hd => ?pieces, fun rate d hrate hd0 hd => ?short, ?second20, ?second100⟩
  case pieces =>
    obtain ⟨n, hn⟩ := Int.eq_ofNat_of_zero_le (floor_mul_nonneg s.sampleRate hd)
    have hexpand := expandRenderSec_of_nonneg (rate := s.sampleRate) hd
    rw [serve_renderSec_of_nonneg hs hd]
    rw [hn, Int.toNat_natCast] at hexpand
    rw [hn]
    have hfits : Fits n s := by rw [Fits, hcap]; rfl
    have hsum := sum_wordCounts n
    obtain ⟨t, bufs, hserve, -, hres, hflat, heng⟩ := serveAll_renders (wordCounts n) hs (by rwa [hsum])
    rw [hsum] at hflat heng
    refine ⟨_, wordCounts n, t, _, bufs, hexpand, rfl, ?wellFormed, by rw [hsum], fun hsmall => ?single, ?serve,
      exec_render_of_fits hs hfits, hres, by simp [hflat], heng⟩
    case wellFormed =>
      intro i hi
      obtain ⟨m, hm, rfl⟩ := List.mem_map.1 hi
      exact wellFormed_render (le_of_mem_wordCounts hm)
    case single =>
      rw [wordCounts, if_pos (by exact_mod_cast hsmall)]
      rfl
    case serve =>
      rw [List.map_map]
      exact hserve
  case short =>
    refine expandRenderSec_of_floor (n := 0) hd0 ?_ (Nat.zero_le _)
    have hpos : (0 : Rat) < rate := Nat.cast_pos.2 hrate
    rw [lt_div_iff₀ hpos, mul_comm] at hd
    exact Int.floor_eq_zero_iff.2 ⟨by positivity, hd⟩
  case second20 => exact expandRenderSec_of_floor (n := 2205) (by norm_num) (by norm_num) (by decide)
  case second100 => exact expandRenderSec_of_floor (n := 441) (by norm_num) (by norm_num) (by decide)

end Sys2Proof.Machine
end

section
/-!
PROOFS. The quantiser and the bytes of a buffer (43_render_quantize R133, R134; 20_memory section 2): QUANT in integers on both sides
of 0, its distance from the exact value, the bytes of a sample, and O43, O44 and O45.
-/

namespace Sys2Proof.Machine

/-! ### QUANT in integers -/

/-- Rounding half away from zero is odd (R133). -/
theorem roundHalfAway_neg (q : Rat) : roundHalfAway (-q) = -roundHalfAway q := by
  unfold roundHalfAway
  rcases lt_trichotomy q 0 with hq | rfl | hq
  · rw [if_pos (by linarith), if_neg (not_le.2 hq), neg_neg]
  · have hhalf : ((0 : Rat) + 1 / 2).floor = 0 := by decide +kernel
    simp only [neg_zero, le_refl, if_true, hhalf]
  · rw [if_neg (by linarith), if_pos hq.le, neg_neg]

theorem quant_neg (M : Int) : quant (-M) = -quant M := by
  rw [quant_eq, quant_eq, ← roundHalfAway_neg]
  congr 1
  push_cast
  ring

/-- At and above 0 the rounding is a floor of halves, which is a division of naturals (R134). -/
theorem quant_natCast (n : Nat) : quant n = ((32767 * n + 60) / 120 : Nat) := by
  have hhalf : 32767 * ((n : Int) : Rat) / 120 + 1 / 2 = ((32767 * n + 60 : Nat) : Rat) / (120 : Nat) := by
    push_cast
    ring
  rw [quant_eq, roundHalfAway, if_pos (by positivity), hhalf]
  exact Rat.floor_natCast_div_natCast _ _

theorem quant_lt_quant_add_one (M : Int) : quant M < quant (M + 1) := by
  obtain ⟨n, rfl | rfl⟩ : ∃ n : Nat, M = n ∨ M = -(n + 1 : Nat) := by
    rcases lt_or_ge M 0 with h | h
    · exact ⟨(-M - 1).toNat, .inr (by omega)⟩
    · exact ⟨M.toNat, .inl (by omega)⟩
  · rw [← Nat.cast_succ, quant_natCast, quant_natCast]
    omega
  · have hsucc : -((n + 1 : Nat) : Int) + 1 = -(n : Int) := by omega
    rw [hsucc, quant_neg, quant_neg, quant_natCast, quant_natCast]
    omega

theorem quant_strictMono : StrictMono quant := strictMono_int_of_lt_succ quant_lt_quant_add_one

/-- At 0 the quotient is 0 already. -/
theorem sign_mul_quant (n : Nat) :
    (n : Int).sign * ((32767 * n + 60) / 120 : Nat) = ((32767 * n + 60) / 120 : Nat) := by
  cases n with
  | zero => rfl
  | succ n => rw [Int.sign_natCast_of_ne_zero n.succ_ne_zero, one_mul]

/-- Settles O43: QUANT is the division of naturals at and above 0, and odd. -/
theorem quantIntegerForm : Obligations.QuantIntegerForm := by
  unfold Obligations.QuantIntegerForm
  refine ⟨fun M => ⟨?form, quant_neg M⟩, fun M N h => quant_strictMono h,
    fun M hlow hhigh => abs_le.2 (quant_mem hlow hhigh), quant_natCast 0, quant_natCast 15, quant_natCast 30, quant_natCast 45, quant_natCast 60⟩
  obtain ⟨n, rfl | rfl⟩ := M.eq_nat_or_neg
  · rw [quant_natCast, Int.natAbs_natCast, sign_mul_quant]
  · rw [quant_neg, quant_natCast, Int.natAbs_neg, Int.natAbs_natCast, Int.sign_neg, neg_mul, sign_mul_quant]

/-! ### QUANT is a nearest integer -/

/-- The remainder of the division is how far QUANT is from the exact value. -/
theorem quant_natCast_error (n : Nat) :
    32767 * (n : Rat) / 120 - quant n = (((32767 * n + 60) % 120 : Nat) - 60 : Rat) / 120 := by
  have hdiv : ((120 * ((32767 * n + 60) / 120) + (32767 * n + 60) % 120 : Nat) : Rat) = (32767 * n + 60 : Nat) :=
    congrArg Nat.cast (Nat.div_add_mod _ _)
  rw [quant_natCast, Int.cast_natCast]
  push_cast at hdiv ⊢
  linarith

/-- On a remainder of 0, which M leaves exactly at 60 modulo 120, the error is half and QUANT lies above. -/
theorem quant_natCast_nearest (n : Nat) : |32767 * (n : Rat) / 120 - quant n| ≤ 1 / 2 ∧
    (|32767 * (n : Rat) / 120 - quant n| = 1 / 2 ↔ (n : Int) % 120 = 60) ∧
    ((n : Int) % 120 = 60 → |32767 * (n : Rat) / 120| < |(quant n : Rat)|) := by
  have herror := quant_natCast_error n
  have hzero : (n : Int) % 120 = 60 ↔ (32767 * n + 60) % 120 = 0 := by omega
  have hlt : (32767 * n + 60) % 120 < 120 := Nat.mod_lt _ (by decide)
  rw [hzero, herror]
  generalize (32767 * n + 60) % 120 = r at *
  have hr0 : (0 : Rat) ≤ r := Nat.cast_nonneg r
  have hr : (r : Rat) < 120 := by exact_mod_cast hlt
  refine ⟨abs_le.2 ⟨by linarith, by linarith⟩, ⟨fun h => ?_, ?_⟩, ?_⟩
  · have hcast : (r : Rat) = 0 := by
      rcases (abs_eq (by norm_num)).1 h with h | h <;> linarith
    exact_mod_cast hcast
  · rintro rfl
    norm_num
  · rintro rfl
    rw [Nat.cast_zero] at herror
    have hx : 0 ≤ 32767 * (n : Rat) / 120 := by positivity
    rw [abs_of_nonneg hx, abs_of_nonneg (by linarith)]
    linarith

/-- Settles O44: at and above 0 by the remainder of the division; below 0 as the mirror image. -/
theorem quantIsNearest : Obligations.QuantIsNearest := by
  unfold Obligations.QuantIsNearest
  intro M
  obtain ⟨n, rfl | rfl⟩ := M.eq_nat_or_neg
  · exact quant_natCast_nearest n
  · have hexact : 32767 * ((-(n : Int) : Int) : Rat) / 120 = -(32767 * (n : Rat) / 120) := by push_cast; ring
    have hmod : -(n : Int) % 120 = 60 ↔ (n : Int) % 120 = 60 := by omega
    rw [hexact, quant_neg, Int.cast_neg, hmod, neg_sub_neg, abs_sub_comm, abs_neg, abs_neg]
    exact quant_natCast_nearest n

/-! ### The bytes of a buffer -/

/-- The low byte is bits 7..0 and the high byte bits 15..8 (R55). -/
theorem sampleBytes_eq (x : Sample) :
    sampleBytes x = [BitVec.ofNat 8 (x.toNat % 256), BitVec.ofNat 8 (x.toNat / 256)] := by
  have hlow : x.extractLsb' 0 8 = BitVec.ofNat 8 (x.toNat % 256) := by
    simp [BitVec.toNat_eq]
  have hhigh : x.extractLsb' 8 8 = BitVec.ofNat 8 (x.toNat / 256) := by
    simp [BitVec.toNat_eq, Nat.shiftRight_eq_div_pow]
  rw [sampleBytes, hlow, hhigh]

theorem pcmBytes_length (buf : List Sample) : (pcmBytes buf).length = 2 * buf.length := by
  induction buf with
  | nil => rfl
  | cons x buf ih =>
    rw [pcmBytes_cons, List.length_cons, List.length_cons, ih, List.length_cons]
    ring

theorem pcmBytes_getElem? {buf : List Sample} {i : Nat} {x : Sample} (h : buf[i]? = some x) :
    (pcmBytes buf)[2 * i]? = some (BitVec.ofNat 8 (x.toNat % 256)) ∧
      (pcmBytes buf)[2 * i + 1]? = some (BitVec.ofNat 8 (x.toNat / 256)) := by
  induction buf generalizing i with
  | nil => simp at h
  | cons y buf ih =>
    have hcons : pcmBytes (y :: buf) = sampleBytes y ++ pcmBytes buf := rfl
    rw [hcons, sampleBytes_eq]
    cases i with
    | zero =>
      obtain rfl : y = x := by simpa using h
      exact ⟨rfl, rfl⟩
    | succ i => exact ih (by simpa using h)

/-- From -16384 to 16383 the sign bit is repeated below itself. -/
theorem getLsbD_15_eq_14 {x : Sample} (hlow : -16384 ≤ x.toInt) (hhigh : x.toInt < 16384) :
    x.getLsbD 15 = x.getLsbD 14 := by
  have hlt := x.isLt
  rw [BitVec.toInt_eq_toNat_cond] at hlow hhigh
  rw [← BitVec.testBit_toNat, ← BitVec.testBit_toNat, Nat.testBit_eq_decide_div_mod_eq, Nat.testBit_eq_decide_div_mod_eq,
    decide_eq_decide]
  split at hlow <;> omega

/-- Settles O45: by induction on the buffer two bytes a sample; a buffer that RENDER returns is a result in range. -/
theorem bufferBytes : Obligations.BufferBytes := by
  unfold Obligations.BufferBytes
  refine ⟨fun buf => ⟨pcmBytes_length buf, fun i x => pcmBytes_getElem?⟩,
    fun v hlow hhigh => ⟨?stored, toInt_ofInt_sample hlow hhigh⟩,
    fun s t n buf hexec hres x hx => ?rendered, by decide, by decide⟩
  case stored =>
    rw [BitVec.toNat_ofInt]
    omega
  case rendered =>
    obtain ⟨hs, he⟩ := exec_effect hexec
    obtain ⟨r, hr, hrange, -⟩ := he.exists_result hs
    obtain rfl : Result.buffer buf = r := by simpa [hres] using hr
    obtain ⟨hlow, hhigh⟩ := of_decide_eq_true (List.all_eq_true.1 hrange x hx)
    exact ⟨hlow, hhigh, fun hne => getLsbD_15_eq_14 hlow (lt_of_le_of_ne hhigh hne)⟩

end Sys2Proof.Machine
end

section
/-!
PROOFS. What a command or a step writes (10_state section 9; 20_memory; 30_encoding section 4): which command changes which element, the
results a step adds, the command a step runs, and O49, O50 and O52.
-/

namespace Sys2Proof.Machine

/-! ### What each command leaves unchanged -/

theorem exec_wrfreq_cases {ch v : Int} {s t : State} (h : exec (.wrfreq ch v) s = .next t) :
    (∃ r, t = takeFault r s) ∨ ∃ (c : Chan) (n : Nat), ch = (c.val : Int) ∧ t = deliver .nothing (writeFreq c n s) := by
  have hs := (exec_effect h).1
  by_cases hch : 0 ≤ ch ∧ ch < 4
  case neg =>
    rw [exec_wrfreq_of_channel hs hch, Host.Outcome.next.injEq] at h
    exact .inl ⟨_, h.symm⟩
  obtain ⟨c, rfl⟩ := exists_chan_of_range hch
  rcases lt_or_ge v 0 with hv | hv
  · rw [exec_wrfreq_of_value hs c hv, Host.Outcome.next.injEq] at h
    exact .inl ⟨_, h.symm⟩
  · lift v to Nat using hv
    rw [exec_wrfreq hs, Host.Outcome.next.injEq] at h
    exact .inr ⟨c, v, rfl, h.symm⟩

theorem exec_wrctrl_cases {ch v : Int} {s t : State} (h : exec (.wrctrl ch v) s = .next t) :
    (∃ r, t = takeFault r s) ∨ ∃ (c : Chan) (b : Byte), ch = (c.val : Int) ∧ t = deliver .nothing (writeCtrl c b s) := by
  have hs := (exec_effect h).1
  by_cases hch : 0 ≤ ch ∧ ch < 4
  case neg =>
    rw [exec_wrctrl_of_channel hs hch, Host.Outcome.next.injEq] at h
    exact .inl ⟨_, h.symm⟩
  obtain ⟨c, rfl⟩ := exists_chan_of_range hch
  by_cases hv : 0 ≤ v ∧ v < 256
  · obtain ⟨b, rfl⟩ := exists_byte_of_range hv
    rw [exec_wrctrl hs, Host.Outcome.next.injEq] at h
    exact .inr ⟨c, b, rfl, h.symm⟩
  · rw [exec_wrctrl_of_value hs c hv, Host.Outcome.next.injEq] at h
    exact .inl ⟨_, h.symm⟩

/-- Neither STEP nor RENDER writes a register (R24, R25). -/
theorem exec_render_registers {n : Int} {s t : State} (h : exec (.render n) s = .next t) :
    t.frequencyDivider = s.frequencyDivider ∧ t.controlByte = s.controlByte := by
  have hs := (exec_effect h).1
  rcases lt_or_ge n 0 with hn | hn
  · rw [exec_render_of_neg hs hn, Host.Outcome.next.injEq] at h
    exact h ▸ ⟨rfl, rfl⟩
  lift n to Nat using hn
  cases hcap : exceedsCapacity n s.bufCapacity with
  | false =>
    rw [exec_render_of_fits hs hcap, Host.Outcome.next.injEq] at h
    simp [← h]
  | true =>
    obtain ⟨k, -, hexec⟩ := exec_render_of_exceeds hs hcap
    rw [hexec, Host.Outcome.next.injEq] at h
    simp [← h]

theorem exec_step_registers {s t : State} (h : exec .step s = .next t) :
    t.frequencyDivider = s.frequencyDivider ∧ t.controlByte = s.controlByte := by
  rw [exec_step (exec_effect h).1, Host.Outcome.next.injEq] at h
  simp [← h]

/-- Only the WRFREQ that names a channel changes its divider. -/
theorem eq_wrfreq_of_freq_ne {i : Instr} {s t : State} {c : Chan} (h : exec i s = .next t) (hne : freq t c ≠ freq s c) :
    ∃ v, i = .wrfreq (c.val : Int) v := by
  cases i with
  | wrfreq ch v =>
    rcases exec_wrfreq_cases h with ⟨r, rfl⟩ | ⟨d, n, rfl, rfl⟩
    · exact absurd rfl hne
    · rw [freq_deliver, freq_writeFreq] at hne
      obtain rfl : d = c := by_contra fun hd => hne (if_neg hd)
      exact ⟨v, rfl⟩
  | wrctrl ch v => rcases exec_wrctrl_cases h with ⟨r, rfl⟩ | ⟨d, b, rfl, rfl⟩ <;> exact absurd rfl hne
  | step => exact absurd (congrArg (·[c]) (exec_step_registers h).1) hne
  | render n => exact absurd (congrArg (·[c]) (exec_render_registers h).1) hne

/-- Only the WRCTRL that names a channel changes its control byte. -/
theorem eq_wrctrl_of_ctrl_ne {i : Instr} {s t : State} {c : Chan} (h : exec i s = .next t) (hne : ctrl t c ≠ ctrl s c) :
    ∃ v, i = .wrctrl (c.val : Int) v := by
  cases i with
  | wrfreq ch v => rcases exec_wrfreq_cases h with ⟨r, rfl⟩ | ⟨d, n, rfl, rfl⟩ <;> exact absurd rfl hne
  | wrctrl ch v =>
    rcases exec_wrctrl_cases h with ⟨r, rfl⟩ | ⟨d, b, rfl, rfl⟩
    · exact absurd rfl hne
    · rw [ctrl_deliver, ctrl_writeCtrl] at hne
      obtain rfl : d = c := by_contra fun hd => hne (if_neg hd)
      exact ⟨v, rfl⟩
  | step => exact absurd (congrArg (·[c]) (exec_step_registers h).2) hne
  | render n => exact absurd (congrArg (·[c]) (exec_render_registers h).2) hne

/-- Only STEP and RENDER change the generator: a register write leaves it as it was. -/
theorem eq_step_or_render_of_generator_ne {i : Instr} {s t : State} (h : exec i s = .next t)
    (hne : t.lfsrState ≠ s.lfsrState ∨ t.channelPhase ≠ s.channelPhase ∨ t.channelOutput ≠ s.channelOutput) :
    i = .step ∨ ∃ n, i = .render n := by
  cases i with
  | wrfreq ch v => rcases exec_wrfreq_cases h with ⟨r, rfl⟩ | ⟨d, n, rfl, rfl⟩ <;> simp at hne
  | wrctrl ch v => rcases exec_wrctrl_cases h with ⟨r, rfl⟩ | ⟨d, b, rfl, rfl⟩ <;> simp at hne
  | step => exact .inl rfl
  | render n => exact .inr ⟨n, rfl⟩

/-- No command writes a rate, the capacity or the port (R22, R23, R140). -/
theorem Effect.parameters {s t : State} (h : Effect s t) :
    t.clockRate = s.clockRate ∧ t.sampleRate = s.sampleRate ∧ t.bufCapacity = s.bufCapacity ∧ t.port = s.port := by
  cases h <;> simp

/-- With no channel in noise mode the noise register stands still (R103). -/
theorem Effect.lfsrState_eq {s t : State} (h : Effect s t) (h0 : noiseCount s = 0) : t.lfsrState = s.lfsrState := by
  have hdraw : noiseCount (takeDraw s) = 0 := h0
  cases h <;> simp [h0, hdraw]

/-- Settles O49: a register write that completes names its channel and writes that register alone; STEP and RENDER write no register,
and move the noise register by their noise-mode channels only. -/
theorem whoWritesWhat : Obligations.WhoWritesWhat := by
  unfold Obligations.WhoWritesWhat
  intro i s t h
  have he := (exec_effect h).2
  exact ⟨he.parameters, fun c => eq_wrfreq_of_freq_ne h, fun c => eq_wrctrl_of_ctrl_ne h,
    eq_step_or_render_of_generator_ne h, fun hne h0 => hne (he.lfsrState_eq h0)⟩

/-! ### What a step adds and runs -/

/-- Settles O50: an idle step adds nothing and takes nothing; any other takes one command, whose effect adds one result. -/
theorem returnedResultsNeverChange : Obligations.ReturnedResultsNeverChange := by
  unfold Obligations.ReturnedResultsNeverChange
  intro s t h
  obtain ⟨hs, ⟨-, rfl⟩ | ⟨cmd, rest, hport, -, he⟩⟩ := step_effect h
  · exact ⟨[], by simp⟩
  · obtain ⟨r, hres, -⟩ := he.exists_result hs
    exact ⟨[r], hres, by simp [hport, he.port_eq], le_rfl⟩

theorem step_of_port_cons {s : State} {cmd : Command} {rest : List Command} (h : s.port = cmd :: rest) :
    step s = serve cmd (setPort rest s) := by
  unfold step serveNext
  rw [h]

theorem serve_word_of_ok {w : Word} {i : Instr} (h : decode w = .ok i) (s : State) : serve (.word w) s = exec i s := by
  simp only [serve, serveWord, h]

/-- A placed word is taken from the port again by the step that runs it (log entry 4). -/
theorem step_withFetchWord (s : State) (w : Word) : step (s.withFetchWord 32 w.toNat) = serve (.word w) s := by
  have hword : BitVec.ofNat 32 (w.toNat % 2 ^ 32) = w := by
    rw [Nat.mod_eq_of_lt w.isLt, BitVec.ofNat_toNat, BitVec.setWidth_eq]
  rw [State.withFetchWord, hword]
  exact step_of_port_cons rfl

/-- Settles O52: a step serves the oldest command, and a legal word is served as the command it decodes to. -/
theorem stepRunsDecodedInstruction : Obligations.StepRunsDecodedInstruction := by
  unfold Obligations.StepRunsDecodedInstruction
  refine ⟨fun s w rest i hport hw => ?word, fun s i rest hport => step_of_port_cons hport,
    fun s d rest hport => step_of_port_cons hport, fun s hs hport => ?idle, fun s w i hw => ?placed⟩
  case word => rw [step_of_port_cons hport, serve_word_of_ok hw, setPort]
  case idle =>
    unfold step serveNext
    rw [hport]
    exact whileLive_of_live hs _
  case placed => rw [step_withFetchWord, serve_word_of_ok hw]

end Sys2Proof.Machine
end

section
/-!
PROOFS. Two engines told apart by nothing a command reads: simulations, which every command and list of commands keeps, and O30, O51
and O53 (42_sample_step on silence; 10_state sections 3 and 4; 20_memory section 5).
-/

namespace Sys2Proof.Machine

/-! ### States with the same generator -/

/-- The two states agree in everything the levels of a sample and the next phases hang on. -/
structure SameGenerator (s t : State) : Prop where
  clockRate : s.clockRate = t.clockRate
  sampleRate : s.sampleRate = t.sampleRate
  freq : ∀ c, freq s c = freq t c
  mode : ∀ c, isNoise (ctrl s c) = isNoise (ctrl t c)
  lfsrState : s.lfsrState = t.lfsrState
  phase : ∀ c, phase s c = phase t c

section SameGenerator

variable {s t : State} (h : SameGenerator s t)
include h

theorem SameGenerator.phaseSum (c : Chan) : phaseSum s c = phaseSum t c :=
  phaseSum_congr h.clockRate h.sampleRate (h.freq c) (h.phase c)

theorem SameGenerator.noiseCount : noiseCount s = noiseCount t := by
  simp only [Machine.noiseCount, h.mode]

theorem SameGenerator.stepLevel (c : Chan) : stepLevel s c = stepLevel t c := by
  simp only [Machine.stepLevel, noiseRank, h.mode, h.lfsrState, h.phaseSum]

theorem SameGenerator.sampleStep : SameGenerator (sampleStep s).1 (sampleStep t).1 where
  clockRate := by simpa using h.clockRate
  sampleRate := by simpa using h.sampleRate
  freq c := by simpa using h.freq c
  mode c := by simpa using h.mode c
  lfsrState := by rw [sampleStep_lfsrState, sampleStep_lfsrState, h.noiseCount, h.lfsrState]
  phase c := by rw [phase_sampleStep, phase_sampleStep, h.phaseSum]

theorem SameGenerator.sampleSteps (n : Nat) : SameGenerator (sampleSteps n s) (sampleSteps n t) := by
  induction n with
  | zero => exact h
  | succ n ih =>
    rw [sampleSteps_succ', sampleSteps_succ']
    exact ih.sampleStep

theorem SameGenerator.out_sampleSteps_succ (n : Nat) (c : Chan) :
    out (Machine.sampleSteps (n + 1) s) c = out (Machine.sampleSteps (n + 1) t) c := by
  rw [Machine.out_sampleSteps_succ, Machine.out_sampleSteps_succ, (h.sampleSteps n).stepLevel]

end SameGenerator

/-- Settles O30: of a control byte the levels and phases hang on the mode alone. -/
theorem volumeNeverAffectsGenerator : Obligations.VolumeNeverAffectsGenerator := by
  unfold Obligations.VolumeNeverAffectsGenerator
  intro s s' n hs hrest hmode
  refine ⟨?_, fun c hvol => by rw [stepTerm, hvol, Nat.cast_zero, mul_zero]⟩
  have hs' : Live s' := hrest ▸ hs
  have hsame : SameGenerator s s' :=
    ⟨hrest ▸ rfl, hrest ▸ rfl, fun c => hrest ▸ rfl, hmode, hrest ▸ rfl, fun c => hrest ▸ rfl⟩
  refine ⟨_, _, serveAll_stepCommands n hs, serveAll_stepCommands n hs', (hsame.sampleSteps n).lfsrState,
    fun c => ⟨(hsame.sampleSteps n).phase c, ?_⟩⟩
  cases n with
  | zero => exact hrest ▸ rfl
  | succ n => exact hsame.out_sampleSteps_succ n c

/-! ### Simulations -/

/-- A relation between states that every state operation keeps, and under which every decision a command makes is the same. -/
structure Simulation (R : State → State → Prop) : Prop where
  faulted {s t : State} : R s t → s.faulted = t.faulted
  sampleRate {s t : State} : R s t → s.sampleRate = t.sampleRate
  bufCapacity {s t : State} : R s t → s.bufCapacity = t.bufCapacity
  draws {s t : State} : R s t → s.draws = t.draws
  stepMix {s t : State} : R s t → stepMix s = stepMix t
  sampleStep {s t : State} : R s t → R (sampleStep s).1 (sampleStep t).1
  writeFreq {s t : State} (c : Chan) (v : Nat) : R s t → R (writeFreq c v s) (writeFreq c v t)
  writeCtrl {s t : State} (c : Chan) (b : Byte) : R s t → R (writeCtrl c b s) (writeCtrl c b t)
  deliver {s t : State} (r : Result) : R s t → R (deliver r s) (deliver r t)
  takeFault {s t : State} (r : FaultRecord) : R s t → R (takeFault r s) (takeFault r t)
  takeDraw {s t : State} : R s t → R (takeDraw s) (takeDraw t)

/-- The two outcomes are next states related by `R`, or one and the same stop. -/
inductive OutcomeRel (R : State → State → Prop) :
    Host.Outcome State Fault Refusal → Host.Outcome State Fault Refusal → Prop where
  | next {s t : State} (h : R s t) : OutcomeRel R (.next s) (.next t)
  | fault (r : Fault) : OutcomeRel R (.fault r) (.fault r)
  | refused (r : Refusal) : OutcomeRel R (.refused r) (.refused r)

namespace Simulation

variable {R : State → State → Prop} (sim : Simulation R) {s t : State} (h : R s t)
include sim h

theorem whileLive {o o' : Host.Outcome State Fault Refusal} (hbody : OutcomeRel R o o') :
    OutcomeRel R (whileLive s o) (whileLive t o') := by
  unfold Machine.whileLive
  rw [sim.faulted h]
  split
  · exact .fault _
  · exact hbody

theorem sampleSteps (n : Nat) : R (sampleSteps n s) (sampleSteps n t) := by
  induction n generalizing s t with
  | zero => exact h
  | succ n ih => exact ih (sim.sampleStep h)

theorem mixes_eq (n : Nat) : mixes n s = mixes n t := by
  induction n generalizing s t with
  | zero => rfl
  | succ n ih => rw [mixes, mixes, sim.stepMix h, ih (sim.sampleStep h)]

theorem renderCount (n : Nat) : R (renderCount n s) (renderCount n t) := by
  cases hcap : exceedsCapacity n t.bufCapacity with
  | false =>
    rw [renderCount_of_fits hcap, renderCount_of_fits (sim.bufCapacity h ▸ hcap), sim.mixes_eq h]
    exact sim.deliver _ (sim.sampleSteps h n)
  | true =>
    rw [renderCount_of_exceeds hcap, renderCount_of_exceeds (sim.bufCapacity h ▸ hcap), exhaust, exhaust, sim.draws h]
    exact sim.takeFault _ (sim.sampleSteps (sim.takeDraw h) _)

theorem exec (i : Instr) : OutcomeRel R (exec i s) (exec i t) := by
  cases i with
  | wrfreq ch v =>
    refine sim.whileLive h ?_
    split
    · exact .next (sim.takeFault _ h)
    · split
      · exact .next (sim.takeFault _ h)
      · exact .next (sim.deliver _ (sim.writeFreq _ _ h))
  | wrctrl ch v =>
    refine sim.whileLive h ?_
    split
    · exact .next (sim.takeFault _ h)
    · split
      · exact .next (sim.takeFault _ h)
      · exact .next (sim.deliver _ (sim.writeCtrl _ _ h))
  | step =>
    refine sim.whileLive h ?_
    simp only [sampleStep_mix, sim.stepMix h]
    exact .next (sim.deliver _ (sim.sampleStep h))
  | render n =>
    refine sim.whileLive h ?_
    split
    · exact .next (sim.takeFault _ h)
    · exact .next (sim.renderCount h _)

theorem serve (cmd : Command) : OutcomeRel R (serve cmd s) (serve cmd t) := by
  cases cmd with
  | word w =>
    simp only [Machine.serve, serveWord]
    split
    · exact sim.exec h _
    · exact sim.whileLive h (.next (sim.takeFault _ h))
  | call i => exact sim.exec h i
  | renderSec d =>
    refine sim.whileLive h ?_
    split
    · exact .next (sim.takeFault _ h)
    · rw [sim.sampleRate h]
      exact sim.exec h (.render _)

theorem serveAll (cmds : List Command) : OutcomeRel R (serveAll cmds s) (serveAll cmds t) := by
  induction cmds generalizing s t with
  | nil => exact .next h
  | cons cmd rest ih =>
    simp only [Machine.serveAll]
    have hrel := sim.serve h cmd
    generalize Machine.serve cmd s = o, Machine.serve cmd t = o' at hrel ⊢
    cases hrel with
    | next hu => exact ih hu
    | fault r => exact .fault r
    | refused r => exact .refused r

end Simulation

theorem OutcomeRel.of_next {R : State → State → Prop} {s : State} {o : Host.Outcome State Fault Refusal}
    (h : OutcomeRel R (.next s) o) : ∃ t, o = .next t ∧ R s t := by
  cases h with
  | next h => exact ⟨_, rfl, h⟩

theorem OutcomeRel.of_fault {R : State → State → Prop} {r : Fault} {o : Host.Outcome State Fault Refusal}
    (h : OutcomeRel R (.fault r) o) : o = .fault r := by
  cases h
  rfl

/-! ### Control bits and outputs that no rule reads -/

/-- Whatever does not read control bytes and outputs is the same of both states. -/
theorem SameSound.apply_eq {α : Type} {s t : State} (h : SameSound s t) (f : State → α)
    (hf : ∀ bytes outs, f { s with controlByte := bytes, channelOutput := outs } = f s) : f s = f t :=
  (hf _ _).symm.trans (congrArg f h.1)

theorem SameSound.sameGenerator {s t : State} (h : SameSound s t) : SameGenerator s t where
  clockRate := h.apply_eq (·.clockRate) fun _ _ => rfl
  sampleRate := h.apply_eq (·.sampleRate) fun _ _ => rfl
  freq c := h.apply_eq (Machine.freq · c) fun _ _ => rfl
  mode c := (h.2 c).1
  lfsrState := h.apply_eq (·.lfsrState) fun _ _ => rfl
  phase c := h.apply_eq (Machine.phase · c) fun _ _ => rfl

/-- The same generator, the same volumes and the same rest make the same sound. -/
theorem SameGenerator.sameSound {s t : State} (h : SameGenerator s t)
    (hvol : ∀ c, volume (ctrl s c) = volume (ctrl t c)) (hfault : s.faulted = t.faulted)
    (hcap : s.bufCapacity = t.bufCapacity) (hport : s.port = t.port) (hres : s.results = t.results)
    (hdraws : s.draws = t.draws) : SameSound s t :=
  ⟨State.ext_get h.clockRate h.sampleRate h.freq (fun _ => rfl) h.lfsrState h.phase (fun _ => rfl) hfault hcap hport hres
    hdraws, fun c => ⟨h.mode c, hvol c⟩⟩

theorem SameSound.stepMix_eq {s t : State} (h : SameSound s t) : stepMix s = stepMix t := by
  simp only [stepMix_eq_sum, h.sameGenerator.stepLevel, fun c => (h.2 c).2]

theorem SameSound.sampleStep {s t : State} (h : SameSound s t) : SameSound (sampleStep s).1 (sampleStep t).1 := by
  refine h.sameGenerator.sampleStep.sameSound (fun c => ?_) ?_ ?_ ?_ ?_ ?_
  · simpa using (h.2 c).2
  · simpa using h.apply_eq (·.faulted) fun _ _ => rfl
  · simpa using h.apply_eq (·.bufCapacity) fun _ _ => rfl
  · simpa using h.apply_eq (·.port) fun _ _ => rfl
  · simpa using h.apply_eq (·.results) fun _ _ => rfl
  · simpa using h.apply_eq (·.draws) fun _ _ => rfl

theorem SameSound.writeCtrl {s t : State} (c : Chan) (b : Byte) (h : SameSound s t) :
    SameSound (writeCtrl c b s) (writeCtrl c b t) := by
  refine ⟨(congrArg (Machine.writeCtrl c b) h.1 :), fun d => ?_⟩
  rw [ctrl_writeCtrl, ctrl_writeCtrl]
  split
  · exact ⟨rfl, rfl⟩
  · exact h.2 d

theorem sameSound_simulation : Simulation SameSound where
  faulted h := h.apply_eq (·.faulted) fun _ _ => rfl
  sampleRate h := h.apply_eq (·.sampleRate) fun _ _ => rfl
  bufCapacity h := h.apply_eq (·.bufCapacity) fun _ _ => rfl
  draws h := h.apply_eq (·.draws) fun _ _ => rfl
  stepMix := SameSound.stepMix_eq
  sampleStep := SameSound.sampleStep
  writeFreq c v h := ⟨(congrArg (writeFreq c v) h.1 :), h.2⟩
  writeCtrl := SameSound.writeCtrl
  deliver r h := ⟨(congrArg (deliver r) h.1 :), h.2⟩
  takeFault r h := ⟨(congrArg (takeFault r) h.1 :), h.2⟩
  takeDraw h := ⟨(congrArg takeDraw h.1 :), h.2⟩

/-- Settles O51: no operation tells two such states apart, so no list of commands does. -/
theorem unreadBitsUnobservable : Obligations.UnreadBitsUnobservable := by
  unfold Obligations.UnreadBitsUnobservable
  intro cmds s s' h
  have hrel := sameSound_simulation.serveAll h cmds
  refine ⟨fun t ht => ?_, fun r hr => (hr ▸ hrel).of_fault⟩
  obtain ⟨t', ht', hsame⟩ := (ht ▸ hrel).of_next
  exact ⟨t', ht', hsame, hsame.apply_eq (·.results) fun _ _ => rfl⟩

/-! ### The commands that wait -/

theorem sampleStep_setPort (p : List Command) (s : State) :
    (sampleStep (setPort p s)).1 = setPort p (sampleStep s).1 := by
  have hport (u : State) : setPort p u = withHost p u.results u.draws u := rfl
  rw [hport, hport, sampleStep_withHost, sampleStep_results, sampleStep_draws]

/-- No command reads or writes the port (log entry 1). -/
theorem setPort_simulation (p : List Command) : Simulation fun s t => setPort p s = t where
  faulted h := (congrArg State.faulted h :)
  sampleRate h := (congrArg State.sampleRate h :)
  bufCapacity h := (congrArg State.bufCapacity h :)
  draws h := (congrArg State.draws h :)
  stepMix h := (congrArg Machine.stepMix h :)
  sampleStep h := (sampleStep_setPort p _).symm.trans (congrArg (fun u => (Machine.sampleStep u).1) h)
  writeFreq c v h := (congrArg (Machine.writeFreq c v) h :)
  writeCtrl c b h := (congrArg (Machine.writeCtrl c b) h :)
  deliver r h := (congrArg (Machine.deliver r) h :)
  takeFault r h := (congrArg (Machine.takeFault r) h :)
  takeDraw h := (congrArg Machine.takeDraw h :)

theorem serve_setPort (p : List Command) {cmd : Command} {s t : State} (h : serve cmd s = .next t) :
    serve cmd (setPort p s) = .next (setPort p t) := by
  obtain ⟨u, hu, rfl⟩ := (h ▸ (setPort_simulation p).serve (s := s) rfl cmd).of_next
  exact hu

theorem serveAll_cons_eq_next {cmd : Command} {rest : List Command} {s t : State} (h : serveAll (cmd :: rest) s = .next t) :
    ∃ u, serve cmd s = .next u ∧ serveAll rest u = .next t := by
  simp only [serveAll] at h
  split at h
  · exact ⟨_, ‹_›, h⟩
  · cases h
  · cases h

theorem run_succ_of_step (M : Host.Core) {s u : M.State} (h : M.step s = .next u) (k : Nat) :
    M.run (k + 1) s = M.run k u := by
  simp only [Host.Core.run, h]

/-- Settles O53, by induction on the commands: the step serves the first of them with the others still on the port, which changes
nothing but what waits. -/
theorem commandsRunInOrder : Obligations.CommandsRunInOrder := by
  unfold Obligations.CommandsRunInOrder
  intro s t cmds later hport h
  induction cmds generalizing s with
  | nil =>
    obtain rfl : s = t := by
      rw [List.nil_append] at hport
      subst hport
      exact Host.Outcome.next.inj h
    exact ⟨rfl, hport⟩
  | cons cmd rest ih =>
    obtain ⟨u, hserve, hrest⟩ := serveAll_cons_eq_next h
    have hwait : u.port = later := (serve_effect hserve).2.port_eq
    have hstep : step s = .next (setPort (rest ++ later) u) :=
      (step_of_port_cons hport).trans (serve_setPort (s := setPort later s) (rest ++ later) hserve)
    rw [List.length_cons, run_succ_of_step Sys2Proof.core hstep]
    refine ih _ rfl ?_
    subst hwait
    exact hrest

end Sys2Proof.Machine
end
